-- ==== Sys2Proof/Word.lean ====
section
/-! DEFINITION. The word types of the block: every register, memory byte and field is an unsigned number of a stated width
(00_scope.md R7). -/

namespace Sys2Proof

/-- A memory byte or a general register (00_scope.md R5, V_WIDTH = 8). -/
abbrev Byte := BitVec 8

/-- An instruction word, the index register, the program counter or a stack entry: 16 bits (00_scope.md R5). -/
abbrev Word := BitVec 16

/-- A general register's index 0x0..0xF, and likewise a key's (10_state.md R20, R27). -/
abbrev RegIdx := Fin 16

end Sys2Proof
end

