-- ==== Sys2Proof/Config.lean ====
section
/-! DEFINITION. The implementation parameters of 00_scope.md R5, each at the spec's value, and the model's one free value.
A parameter with alternatives is a type of its own: an operation that depends on it takes it as an argument, and the machine
passes the constant of this file. -/

namespace Sys2Proof.Config

/-- MEM_SIZE: addresses 0x000-0xFFF (00_scope.md R5, 20_memory.md R50). -/
def memSize : Nat := 4096

/-- ROM_BASE, the load address and the entry point (00_scope.md R5, 10_state.md R43). -/
def romBase : Nat := 0x200

/-- ROM_MAX (00_scope.md R5). -/
def romMax : Nat := 3584

/-- STACK_CAPACITY: legal set 12..16, the spec's value 16 (00_scope.md R5; D2, log 8). -/
abbrev stackCapacity : Nat := 16

/-- FONT_BASE: any a with a + 80 <= 0x200, the spec's value 0x000 (00_scope.md R5; D3). -/
def fontBase : Nat := 0x000

/-- FONT_DATA (20_memory.md R59; D4, from general knowledge), five rows a digit, top row first. -/
def fontData : List Byte :=
  [0xF0, 0x90, 0x90, 0x90, 0xF0] ++ [0x20, 0x60, 0x20, 0x20, 0x70] ++
  [0xF0, 0x10, 0xF0, 0x80, 0xF0] ++ [0xF0, 0x10, 0xF0, 0x10, 0xF0] ++
  [0x90, 0x90, 0xF0, 0x10, 0x10] ++ [0xF0, 0x80, 0xF0, 0x10, 0xF0] ++
  [0xF0, 0x80, 0xF0, 0x90, 0xF0] ++ [0xF0, 0x10, 0x20, 0x40, 0x40] ++
  [0xF0, 0x90, 0xF0, 0x90, 0xF0] ++ [0xF0, 0x90, 0xF0, 0x10, 0xF0] ++
  [0xF0, 0x90, 0xF0, 0x90, 0x90] ++ [0xE0, 0x90, 0xE0, 0x90, 0xE0] ++
  [0xF0, 0x80, 0x80, 0x80, 0xF0] ++ [0xE0, 0x90, 0x90, 0x90, 0xE0] ++
  [0xF0, 0x80, 0xF0, 0x80, 0xF0] ++ [0xF0, 0x80, 0xF0, 0x80, 0x80]

/-- FONT_GLYPHS x FONT_GLYPH_BYTES = 80 bytes (00_scope.md R5). -/
def fontSize : Nat := 80

/-- UNKNOWN_OPCODE_POLICY (30_encoding.md R86). -/
inductive UnknownOpcodePolicy
  | nop
  | fatal
  deriving DecidableEq, Repr

/-- SHIFT_SOURCE: the register 8XY6 and 8XYE shift (42_alu.md R148, R150). -/
inductive ShiftSource
  | vx
  | vy
  deriving DecidableEq, Repr

/-- DRAW_EDGE: what becomes of a sprite bit past the edge (40_display.md R112). -/
inductive DrawEdge
  | wrap
  | clip
  deriving DecidableEq, Repr

/-- LOADSTORE_I_INCREMENT: I after FX55 and FX65 (43_index_memory.md R169). -/
inductive LoadStoreIncrement
  | none
  | x
  | xPlusOne
  deriving DecidableEq, Repr

/-- FONT_WRITE_POLICY: a program's write to a font byte (20_memory.md R52). -/
inductive FontWritePolicy
  | fatal
  | ignore
  | allow
  deriving DecidableEq, Repr

/-- The spec's value (D5). -/
def unknownOpcodePolicy : UnknownOpcodePolicy := .nop

/-- STRICT_DECODE: the spec's value (D6). -/
def strictDecode : Bool := false

/-- The spec's value (D8). -/
def shiftSource : ShiftSource := .vx

/-- LOGIC_VF_RESET: the spec's value (D9; 42_alu.md R139). -/
def logicVfReset : Bool := false

/-- The spec's value (D11). -/
def drawEdge : DrawEdge := .wrap

/-- The spec's value (D16). -/
def loadStoreIncrement : LoadStoreIncrement := .none

/-- The spec's value (D19). -/
def fontWritePolicy : FontWritePolicy := .fatal

/-- FREE VALUE: the random byte of the n-th Cycle that the model supplies itself (42_alu.md R151, 60_exceptions.md R248,
D26; log 3). Nothing constrains it. -/
opaque freeByte : Nat → Byte

end Sys2Proof.Config
end

