-- ==== Sys2Proof/Syntax.lean ====
section
/-! DEFINITION. The instructions: one constructor per row of spec/opcode_table.json (30_encoding.md R84). Field names as in
30_encoding.md R80. The nibbles the decoder ignores (R83) are kept (`x` of CLS and RET, `n` of 5XY- and 9XY-), so that a
constructor holds every bit of its word: a fatal error records the whole word (60_exceptions.md R222). -/

namespace Sys2Proof

/-- An instruction with its operands (30_encoding.md R82). -/
inductive Instr
  /-- 0-E0 CLS (40_display.md R110); `x` is the ignored nibble. -/
  | cls (x : BitVec 4)
  /-- 0-EE RET (41_control_flow.md R122); `x` is the ignored nibble. -/
  | ret (x : BitVec 4)
  /-- 1NNN JP addr (41_control_flow.md R123). -/
  | jp (nnn : BitVec 12)
  /-- 2NNN CALL addr (41_control_flow.md R124). -/
  | call (nnn : BitVec 12)
  /-- 3XNN SE Vx, byte (41_control_flow.md R125). -/
  | seByte (x : RegIdx) (nn : Byte)
  /-- 4XNN SNE Vx, byte (41_control_flow.md R126). -/
  | sneByte (x : RegIdx) (nn : Byte)
  /-- 5XY- SE Vx, Vy (41_control_flow.md R127); `n` is the ignored nibble. -/
  | seReg (x y : RegIdx) (n : BitVec 4)
  /-- 6XNN LD Vx, byte (42_alu.md R140). -/
  | ldByte (x : RegIdx) (nn : Byte)
  /-- 7XNN ADD Vx, byte (42_alu.md R141). -/
  | addByte (x : RegIdx) (nn : Byte)
  /-- 8XY0 LD Vx, Vy (42_alu.md R142). -/
  | ldReg (x y : RegIdx)
  /-- 8XY1 OR Vx, Vy (42_alu.md R143). -/
  | orReg (x y : RegIdx)
  /-- 8XY2 AND Vx, Vy (42_alu.md R144). -/
  | andReg (x y : RegIdx)
  /-- 8XY3 XOR Vx, Vy (42_alu.md R145). -/
  | xorReg (x y : RegIdx)
  /-- 8XY4 ADD Vx, Vy (42_alu.md R146). -/
  | addReg (x y : RegIdx)
  /-- 8XY5 SUB Vx, Vy (42_alu.md R147). -/
  | subReg (x y : RegIdx)
  /-- 8XY6 SHR Vx, Vy (42_alu.md R148). -/
  | shr (x y : RegIdx)
  /-- 8XY7 SUBN Vx, Vy (42_alu.md R149). -/
  | subn (x y : RegIdx)
  /-- 8XYE SHL Vx, Vy (42_alu.md R150). -/
  | shl (x y : RegIdx)
  /-- 9XY- SNE Vx, Vy (41_control_flow.md R128); `n` is the ignored nibble. -/
  | sneReg (x y : RegIdx) (n : BitVec 4)
  /-- ANNN LD I, addr (43_index_memory.md R170). -/
  | ldI (nnn : BitVec 12)
  /-- BNNN JP V0, addr (41_control_flow.md R129). -/
  | jpV0 (nnn : BitVec 12)
  /-- CXNN RND Vx, byte (42_alu.md R151). -/
  | rnd (x : RegIdx) (nn : Byte)
  /-- DXYN DRW Vx, Vy, nibble (40_display.md R111); `n` is the number of rows, 0..15. -/
  | drw (x y : RegIdx) (n : Fin 16)
  /-- EX9E SKP Vx (44_keys_timers.md R190). -/
  | skp (x : RegIdx)
  /-- EXA1 SKNP Vx (44_keys_timers.md R191). -/
  | sknp (x : RegIdx)
  /-- FX07 LD Vx, DT (44_keys_timers.md R192). -/
  | ldVxDt (x : RegIdx)
  /-- FX0A LD Vx, K (44_keys_timers.md R193). -/
  | ldVxK (x : RegIdx)
  /-- FX15 LD DT, Vx (44_keys_timers.md R194). -/
  | ldDtVx (x : RegIdx)
  /-- FX18 LD ST, Vx (44_keys_timers.md R195). -/
  | ldStVx (x : RegIdx)
  /-- FX1E ADD I, Vx (43_index_memory.md R171). -/
  | addI (x : RegIdx)
  /-- FX29 LD F, Vx (43_index_memory.md R172). -/
  | ldF (x : RegIdx)
  /-- FX33 LD B, Vx (43_index_memory.md R173). -/
  | ldB (x : RegIdx)
  /-- FX55 LD [I], Vx (43_index_memory.md R174). -/
  | store (x : RegIdx)
  /-- FX65 LD Vx, [I] (43_index_memory.md R175). -/
  | load (x : RegIdx)
  deriving DecidableEq, Repr

end Sys2Proof
end

