-- ==== Sys2Proof/WellFormed.lean ====
section
/-! DEFINITION. Well-formed instructions. Operand ranges are in the constructors' types; what is left to check is the nibble
that STRICT_DECODE wants to be zero (30_encoding.md R83). -/

namespace Sys2Proof

/-- The check under a given STRICT_DECODE: with true, X = 0 in class 0x0 and N = 0 in classes 0x5 and 0x9; with false,
nothing (30_encoding.md R83). -/
def Instr.wellFormedUnder (strict : Bool) : Instr → Bool
  | .cls x => !strict || x == 0
  | .ret x => !strict || x == 0
  | .seReg _ _ n => !strict || n == 0
  | .sneReg _ _ n => !strict || n == 0
  | .jp _ | .call _ | .seByte _ _ | .sneByte _ _ | .ldByte _ _ | .addByte _ _ | .ldReg _ _ | .orReg _ _ | .andReg _ _
  | .xorReg _ _ | .addReg _ _ | .subReg _ _ | .shr _ _ | .subn _ _ | .shl _ _ | .ldI _ | .jpV0 _ | .rnd _ _ | .drw _ _ _
  | .skp _ | .sknp _ | .ldVxDt _ | .ldVxK _ | .ldDtVx _ | .ldStVx _ | .addI _ | .ldF _ | .ldB _ | .store _ | .load _ => true

/-- Well-formed for this machine: the check under the spec's STRICT_DECODE. -/
def Instr.wellFormed (i : Instr) : Bool :=
  i.wellFormedUnder Config.strictDecode

end Sys2Proof
end

