-- ==== Sys2Proof/Decode.lean ====
section
/-! DEFINITION. The decoder, total on any bytes, which rejects by name; after it the encoder, from the same rows
(30_encoding.md R80 to R85). -/

namespace Sys2Proof

/-- Why bytes are no instruction. -/
inductive DecodeReject
  /-- Fewer than two bytes: an instruction is one 16-bit word (30_encoding.md R80). -/
  | truncated
  /-- Class 0x0, NN not 0xE0 or 0xEE, or X not 0 under STRICT_DECODE (R85). -/
  | unknownClass0 (w : Word)
  /-- Class 0x5 with N not 0 under STRICT_DECODE (R85). -/
  | unknownClass5 (w : Word)
  /-- Class 0x8, N in 0x8..0xD or 0xF (R85). -/
  | unknownClass8 (w : Word)
  /-- Class 0x9 with N not 0 under STRICT_DECODE (R85). -/
  | unknownClass9 (w : Word)
  /-- Class 0xE, NN not 0x9E or 0xA1 (R85). -/
  | unknownClassE (w : Word)
  /-- Class 0xF, NN none of the nine sub-codes (R85). -/
  | unknownClassF (w : Word)
  deriving DecidableEq, Repr

/-- The operation class c = w[15:12] (R81). -/
def fieldC (w : Word) : BitVec 4 := w.extractLsb 15 12

/-- X = w[11:8] (R81). -/
def fieldX (w : Word) : BitVec 4 := w.extractLsb 11 8

/-- Y = w[7:4] (R81). -/
def fieldY (w : Word) : BitVec 4 := w.extractLsb 7 4

/-- N = w[3:0] (R81). -/
def fieldN (w : Word) : BitVec 4 := w.extractLsb 3 0

/-- NN = w[7:0] (R81). -/
def fieldNN (w : Word) : Byte := w.extractLsb 7 0

/-- NNN = w[11:0] (R81). -/
def fieldNNN (w : Word) : BitVec 12 := w.extractLsb 11 0

/-- A nibble read as a register index or a row count. -/
def nibbleIdx (n : BitVec 4) : Fin 16 := ⟨n.toNat, n.isLt⟩

/-- X as a register index (R82). -/
def regX (w : Word) : RegIdx := nibbleIdx (fieldX w)

/-- Y as a register index (R82). -/
def regY (w : Word) : RegIdx := nibbleIdx (fieldY w)

/-- Class 0x0 dispatches on NN (R83). -/
def decodeClass0 (strict : Bool) (w : Word) : Except DecodeReject Instr :=
  if strict && fieldX w != 0 then .error (.unknownClass0 w)
  else match fieldNN w with
    | 0xE0#8 => .ok (.cls (fieldX w))
    | 0xEE#8 => .ok (.ret (fieldX w))
    | _ => .error (.unknownClass0 w)

/-- Class 0x8 dispatches on N (R83). -/
def decodeClass8 (w : Word) : Except DecodeReject Instr :=
  match fieldN w with
  | 0x0#4 => .ok (.ldReg (regX w) (regY w))
  | 0x1#4 => .ok (.orReg (regX w) (regY w))
  | 0x2#4 => .ok (.andReg (regX w) (regY w))
  | 0x3#4 => .ok (.xorReg (regX w) (regY w))
  | 0x4#4 => .ok (.addReg (regX w) (regY w))
  | 0x5#4 => .ok (.subReg (regX w) (regY w))
  | 0x6#4 => .ok (.shr (regX w) (regY w))
  | 0x7#4 => .ok (.subn (regX w) (regY w))
  | 0xE#4 => .ok (.shl (regX w) (regY w))
  | _ => .error (.unknownClass8 w)

/-- Class 0xE dispatches on NN (R83). -/
def decodeClassE (w : Word) : Except DecodeReject Instr :=
  match fieldNN w with
  | 0x9E#8 => .ok (.skp (regX w))
  | 0xA1#8 => .ok (.sknp (regX w))
  | _ => .error (.unknownClassE w)

/-- Class 0xF dispatches on NN (R83). -/
def decodeClassF (w : Word) : Except DecodeReject Instr :=
  match fieldNN w with
  | 0x07#8 => .ok (.ldVxDt (regX w))
  | 0x0A#8 => .ok (.ldVxK (regX w))
  | 0x15#8 => .ok (.ldDtVx (regX w))
  | 0x18#8 => .ok (.ldStVx (regX w))
  | 0x1E#8 => .ok (.addI (regX w))
  | 0x29#8 => .ok (.ldF (regX w))
  | 0x33#8 => .ok (.ldB (regX w))
  | 0x55#8 => .ok (.store (regX w))
  | 0x65#8 => .ok (.load (regX w))
  | _ => .error (.unknownClassF w)

/-- The decoder of one word under a given STRICT_DECODE: dispatch on the class, then on the sub-code (R83, R84). -/
def decodeUnder (strict : Bool) (w : Word) : Except DecodeReject Instr :=
  match fieldC w with
  | 0x0#4 => decodeClass0 strict w
  | 0x1#4 => .ok (.jp (fieldNNN w))
  | 0x2#4 => .ok (.call (fieldNNN w))
  | 0x3#4 => .ok (.seByte (regX w) (fieldNN w))
  | 0x4#4 => .ok (.sneByte (regX w) (fieldNN w))
  | 0x5#4 => if strict && fieldN w != 0 then .error (.unknownClass5 w) else .ok (.seReg (regX w) (regY w) (fieldN w))
  | 0x6#4 => .ok (.ldByte (regX w) (fieldNN w))
  | 0x7#4 => .ok (.addByte (regX w) (fieldNN w))
  | 0x8#4 => decodeClass8 w
  | 0x9#4 => if strict && fieldN w != 0 then .error (.unknownClass9 w) else .ok (.sneReg (regX w) (regY w) (fieldN w))
  | 0xA#4 => .ok (.ldI (fieldNNN w))
  | 0xB#4 => .ok (.jpV0 (fieldNNN w))
  | 0xC#4 => .ok (.rnd (regX w) (fieldNN w))
  | 0xD#4 => .ok (.drw (regX w) (regY w) (nibbleIdx (fieldN w)))
  | 0xE#4 => decodeClassE w
  | _ => decodeClassF w

/-- The decoder of one word, with the spec's STRICT_DECODE. -/
def decode (w : Word) : Except DecodeReject Instr :=
  decodeUnder Config.strictDecode w

/-- The word of two bytes in the order they lie in memory: big-endian (20_memory.md R54). -/
def wordOfBytes (hi lo : Byte) : Word := hi ++ lo

/-- The two bytes of a word in the order they lie in memory (20_memory.md R54). -/
def bytesOfWord (w : Word) : List Byte := [w.extractLsb 15 8, w.extractLsb 7 0]

/-- The decoder on bytes: it consumes exactly two (30_encoding.md R89) and gives the rest back. -/
def decodeBytes : List Byte → Except DecodeReject (Instr × List Byte)
  | hi :: lo :: rest =>
    match decode (wordOfBytes hi lo) with
    | .ok i => .ok (i, rest)
    | .error e => .error e
  | _ => .error .truncated

/-- The instruction the decoder reads from an instruction whose bits are `w`, numbered as spec/opcode_table.json numbers
them: bit 0 is the least significant bit of the word; bits from `nbits` on are zero. -/
def decodeTableWord (nbits w : Nat) : Option Instr :=
  match decodeBytes (bytesOfWord (BitVec.ofNat 16 (w % 2 ^ nbits))) with
  | .ok (i, _) => some i
  | .error _ => none

/-- The word of four nibbles, the class first (30_encoding.md R80). -/
def assemble (c x y n : BitVec 4) : Word := c ++ x ++ y ++ n

/-- The word of a class, a register and a byte. -/
def assembleXNN (c x : BitVec 4) (nn : Byte) : Word := c ++ x ++ nn

/-- The word of a class and an address. -/
def assembleNNN (c : BitVec 4) (nnn : BitVec 12) : Word := c ++ nnn

/-- The encoder: the word of an instruction, row by row of 30_encoding.md R84. -/
def encode : Instr → Word
  | .cls x => assembleXNN 0x0 x 0xE0
  | .ret x => assembleXNN 0x0 x 0xEE
  | .jp nnn => assembleNNN 0x1 nnn
  | .call nnn => assembleNNN 0x2 nnn
  | .seByte x nn => assembleXNN 0x3 (.ofFin x) nn
  | .sneByte x nn => assembleXNN 0x4 (.ofFin x) nn
  | .seReg x y n => assemble 0x5 (.ofFin x) (.ofFin y) n
  | .ldByte x nn => assembleXNN 0x6 (.ofFin x) nn
  | .addByte x nn => assembleXNN 0x7 (.ofFin x) nn
  | .ldReg x y => assemble 0x8 (.ofFin x) (.ofFin y) 0x0
  | .orReg x y => assemble 0x8 (.ofFin x) (.ofFin y) 0x1
  | .andReg x y => assemble 0x8 (.ofFin x) (.ofFin y) 0x2
  | .xorReg x y => assemble 0x8 (.ofFin x) (.ofFin y) 0x3
  | .addReg x y => assemble 0x8 (.ofFin x) (.ofFin y) 0x4
  | .subReg x y => assemble 0x8 (.ofFin x) (.ofFin y) 0x5
  | .shr x y => assemble 0x8 (.ofFin x) (.ofFin y) 0x6
  | .subn x y => assemble 0x8 (.ofFin x) (.ofFin y) 0x7
  | .shl x y => assemble 0x8 (.ofFin x) (.ofFin y) 0xE
  | .sneReg x y n => assemble 0x9 (.ofFin x) (.ofFin y) n
  | .ldI nnn => assembleNNN 0xA nnn
  | .jpV0 nnn => assembleNNN 0xB nnn
  | .rnd x nn => assembleXNN 0xC (.ofFin x) nn
  | .drw x y n => assemble 0xD (.ofFin x) (.ofFin y) (.ofFin n)
  | .skp x => assembleXNN 0xE (.ofFin x) 0x9E
  | .sknp x => assembleXNN 0xE (.ofFin x) 0xA1
  | .ldVxDt x => assembleXNN 0xF (.ofFin x) 0x07
  | .ldVxK x => assembleXNN 0xF (.ofFin x) 0x0A
  | .ldDtVx x => assembleXNN 0xF (.ofFin x) 0x15
  | .ldStVx x => assembleXNN 0xF (.ofFin x) 0x18
  | .addI x => assembleXNN 0xF (.ofFin x) 0x1E
  | .ldF x => assembleXNN 0xF (.ofFin x) 0x29
  | .ldB x => assembleXNN 0xF (.ofFin x) 0x33
  | .store x => assembleXNN 0xF (.ofFin x) 0x55
  | .load x => assembleXNN 0xF (.ofFin x) 0x65

end Sys2Proof
end

