-- ==== Sys2Proof/Machine/State.lean ====
section
/-! DEFINITION. The block's state (10_state.md, the table at its head), the host's events (60_exceptions.md R260), why a step
can stop, and the state right after reset. -/

namespace Sys2Proof.Machine

/-- The run state RS (10_state.md R28). -/
inductive RunState
  | running
  | paused
  | quit
  deriving DecidableEq, Repr

/-- The cause of a fatal error, FR.kind (60_exceptions.md R220). -/
inductive FatalKind
  /-- No fault. -/
  | none
  /-- 2NNN with SP = STACK_CAPACITY. -/
  | stackOverflow
  /-- 00EE with SP = 0. -/
  | stackUnderflow
  /-- The fetch of a Cycle beyond 0xFFE. -/
  | memOobFetch
  /-- DXYN or FX65 reads above 0xFFF. -/
  | memOobRead
  /-- FX33 or FX55 writes above 0xFFF. -/
  | memOobWrite
  /-- FX33 or FX55 writes a font byte under FONT_WRITE_POLICY = FATAL. -/
  | fontWrite
  /-- An unknown opcode under UNKNOWN_OPCODE_POLICY = FATAL. -/
  | unknownOpcode
  deriving DecidableEq, Repr

/-- The fault record FR (10_state.md R29). -/
structure FaultRecord where
  /-- A fatal error is recorded. -/
  valid : Bool
  /-- The cause. -/
  kind : FatalKind
  /-- The address of the instruction that faulted. -/
  pc : Word
  /-- The instruction word; 0 for a fetch fault. -/
  opcode : Word
  /-- False for a fetch fault. -/
  opcodeValid : Bool
  /-- The offending memory address for a memory fault, else 0. -/
  addr : BitVec 17
  deriving DecidableEq, Repr

/-- FR after construction: valid = 0, every other field 0 (10_state.md R49). -/
def FaultRecord.clear : FaultRecord :=
  { valid := false, kind := .none, pc := 0, opcode := 0, opcodeValid := false, addr := 0 }

/-- Memory M as the list of the bytes that differ from what an unlisted address reads as (20_memory.md R50, 10_state.md R31;
the canonical form is Memory.wf in Machine/Ops.lean). -/
abbrev Memory := List Host.Cell

/-- The display D: column x, then row y (10_state.md R26). -/
abbrev Display := Vector (Vector Bool 32) 64

/-- The keypad K (10_state.md R27). -/
abbrev Keypad := Vector Bool 16

/-- The block's input events (60_exceptions.md R260). -/
inductive Event
  /-- Construction with a ROM image (70_reset_and_hazards.md R270). -/
  | init (rom : List Byte)
  /-- One fetch-decode-execute cycle with its random byte (30_encoding.md R90). -/
  | cycle (r : Byte)
  /-- The 60 Hz timer decrement (R240). -/
  | tick
  /-- The host writes the keypad. -/
  | setKeys (k : Keypad)
  /-- RUNNING and PAUSED swap (R252). -/
  | pauseToggle
  /-- The host ends the run (R253). -/
  | quit
  deriving DecidableEq, Repr

/-- The whole state. The last three fields are the model's own (log 1, log 3): they stand for what comes from outside the
block. -/
structure State where
  /-- M (R31). -/
  mem : Memory
  /-- V0..VF (R20). -/
  v : Vector Byte 16
  /-- I (R23). -/
  i : Word
  /-- PC (R22). -/
  pc : Word
  /-- S (R24). -/
  stack : Vector Word Config.stackCapacity
  /-- SP, the number of entries held (R24). -/
  sp : Fin (Config.stackCapacity + 1)
  /-- DT (R25). -/
  dt : Byte
  /-- ST (R25). -/
  st : Byte
  /-- D (R26). -/
  display : Display
  /-- K (R27). -/
  keys : Keypad
  /-- RS (R28). -/
  rs : RunState
  /-- FR (R29). -/
  fr : FaultRecord
  /-- The host's events not yet taken, oldest first (log 1). -/
  inbox : List Event
  /-- The random byte the Cycle event being executed brought; none in a Cycle the model supplies itself (log 3). -/
  rnd : Option Byte
  /-- How many Cycles the model has supplied itself (log 3). -/
  draws : Nat
  deriving DecidableEq, Repr

/-- What stops the machine without a next state. -/
inductive Fault
  /-- ROM_TOO_LARGE: an Init whose image is longer than ROM_MAX is refused and no block state comes into existence
  (60_exceptions.md R225, 70_reset_and_hazards.md R270). Raised by `step` on that event. Safe. -/
  | romTooLarge
  deriving DecidableEq, Repr

/-- What has no meaning in the model. -/
inductive Refusal
  /-- An instruction whose arm of `exec` has no meaning yet; no arm answers it. Safe. -/
  | notModelled (mnemonic : String)
  deriving DecidableEq, Repr

/-- The block right after construction with the empty ROM (70_reset_and_hazards.md R270, R271; 10_state.md R40 to R49): no
memory byte listed, so memory reads as the font and zeros. -/
def State.reset : State where
  mem := []
  v := Vector.replicate 16 0
  i := 0
  pc := 0x200
  stack := Vector.replicate Config.stackCapacity 0
  sp := 0
  dt := 0
  st := 0
  display := Vector.replicate 64 (Vector.replicate 32 false)
  keys := Vector.replicate 16 false
  rs := .running
  fr := FaultRecord.clear
  inbox := []
  rnd := none
  draws := 0

end Sys2Proof.Machine
end

