-- ==== Sys2Proof/Machine/Ops.lean ====
section
/-! DEFINITION. The named operations over memory, registers, stack and display, and the fatal path, the block's one
exception (60_exceptions.md R221, R222). There is no return from it (R223). -/

namespace Sys2Proof.Machine

/-- The answer of a step of this machine. -/
abbrev Answer := Host.Outcome State Fault Refusal

/-! ## Registers and the other units: one read and one write each -/

/-- V[r] (10_state.md R20: no register is hardwired). -/
def State.getV (s : State) (r : RegIdx) : Byte := s.v[r.val]

/-- V[r] <- b. -/
def State.setV (s : State) (r : RegIdx) (b : Byte) : State := { s with v := s.v.set r.val b }

/-- The index of VF, the flag register (10_state.md R21). -/
def vf : RegIdx := 15

/-- I <- w. -/
def State.setI (s : State) (w : Word) : State := { s with i := w }

/-- PC <- w. -/
def State.setPc (s : State) (w : Word) : State := { s with pc := w }

/-- DT <- b. -/
def State.setDt (s : State) (b : Byte) : State := { s with dt := b }

/-- ST <- b. -/
def State.setSt (s : State) (b : Byte) : State := { s with st := b }

/-- M <- m. -/
def State.setMem (s : State) (m : Memory) : State := { s with mem := m }

/-- D <- d. -/
def State.setDisplay (s : State) (d : Display) : State := { s with display := d }

/-- K <- k. -/
def State.setKeypad (s : State) (k : Keypad) : State := { s with keys := k }

/-- RS <- r. -/
def State.setRs (s : State) (r : RunState) : State := { s with rs := r }

/-- FR <- f. -/
def State.setFr (s : State) (f : FaultRecord) : State := { s with fr := f }

/-- S and SP. -/
def State.setStack (s : State) (st : Vector Word Config.stackCapacity) (sp : Fin (Config.stackCapacity + 1)) : State :=
  { s with stack := st, sp := sp }

/-- The host's events still to come. -/
def State.setInbox (s : State) (es : List Event) : State := { s with inbox := es }

/-- The source of the current Cycle's random byte (log 3). -/
def State.setDraw (s : State) (r : Option Byte) (n : Nat) : State := { s with rnd := r, draws := n }

/-- The current Cycle's random byte r: the Cycle event's, or a free value in a Cycle the model supplies itself
(42_alu.md R151, log 3). -/
def State.randomByte (s : State) : Byte :=
  match s.rnd with
  | some r => r
  | none => Config.freeByte s.draws

/-! ## Memory -/

/-- Whether `a` is one of the 80 font bytes (20_memory.md R59). -/
def isFontAddr (a : Nat) : Bool := Config.fontBase ≤ a && a < Config.fontBase + Config.fontSize

/-- What an unlisted address reads as: the contents after construction, before any ROM (10_state.md R40). -/
def initialByte (a : Nat) : Byte :=
  if isFontAddr a then Config.fontData.getD (a - Config.fontBase) 0 else 0

/-- M[a]. -/
def Memory.read : Memory → Nat → Byte
  | [], a => initialByte a
  | (b, u) :: m, a => if a = b then u else Memory.read m a

/-- M[a] <- v, keeping the canonical form. -/
def Memory.write : Memory → Nat → Byte → Memory
  | [], a, v => if v = initialByte a then [] else [(a, v)]
  | (b, u) :: m, a, v =>
    if a < b then (if v = initialByte a then (b, u) :: m else (a, v) :: (b, u) :: m)
    else if a = b then (if v = initialByte a then m else (a, v) :: m)
    else (b, u) :: Memory.write m a v

/-- The canonical form: addresses strictly rising and inside the address space, no entry equal to what an unlisted address
reads as. -/
def Memory.wf : Memory → Bool
  | [] => true
  | (a, v) :: m => decide (a < Config.memSize) && v != initialByte a && m.all (fun c => a < c.1) && Memory.wf m

/-- Bytes placed one after another from `a` on, by the host (the ROM load of 70_reset_and_hazards.md R270). -/
def Memory.place : Memory → Nat → List Byte → Memory
  | m, _, [] => m
  | m, a, b :: bs => Memory.place (Memory.write m a b) (a + 1) bs

/-- What a `raise Fatal(kind, info)` carries: the kind, and the offending address or 0 (60_exceptions.md R220, R221). -/
structure Raise where
  /-- FR.kind. -/
  kind : FatalKind
  /-- FR.addr. -/
  addr : Nat
  deriving DecidableEq, Repr

/-- MemRead(a, 1) (20_memory.md R51). -/
def memRead (m : Memory) (a : Nat) : Except Raise Byte :=
  if a < Config.memSize then .ok (Memory.read m a) else .error ⟨.memOobRead, a⟩

/-- MemWrite(a, 1, v) under a given FONT_WRITE_POLICY (20_memory.md R52). -/
def memWriteUnder (policy : Config.FontWritePolicy) (m : Memory) (a : Nat) (v : Byte) : Except Raise Memory :=
  if a < Config.memSize then
    if isFontAddr a then
      match policy with
      | .fatal => .error ⟨.fontWrite, a⟩
      | .ignore => .ok m
      | .allow => .ok (Memory.write m a v)
    else .ok (Memory.write m a v)
  else .error ⟨.memOobWrite, a⟩

/-- Fetch16(a), big-endian (20_memory.md R53). -/
def fetch16 (m : Memory) (a : Nat) : Except Raise Word :=
  if a < Config.memSize then
    if a + 1 < Config.memSize then .ok (wordOfBytes (Memory.read m a) (Memory.read m (a + 1)))
    else .error ⟨.memOobFetch, a + 1⟩
  else .error ⟨.memOobFetch, a⟩

/-- `n` bytes read from `a` on, in ascending order (43_index_memory.md R169, 40_display.md R111). -/
def readBytes (m : Memory) (a : Nat) : Nat → Except Raise (List Byte)
  | 0 => .ok []
  | n + 1 =>
    match memRead m a with
    | .error e => .error e
    | .ok b =>
      match readBytes m (a + 1) n with
      | .error e => .error e
      | .ok bs => .ok (b :: bs)

/-- Bytes written from `a` on, in ascending order (43_index_memory.md R169). -/
def writeBytesUnder (policy : Config.FontWritePolicy) : Memory → Nat → List Byte → Except Raise Memory
  | m, _, [] => .ok m
  | m, a, b :: bs =>
    match memWriteUnder policy m a b with
    | .error e => .error e
    | .ok m' => writeBytesUnder policy m' (a + 1) bs

/-- V[k], V[k+1], ... <- the bytes in turn, up to VF (43_index_memory.md R175). -/
def State.setVFrom (s : State) (k : Nat) : List Byte → State
  | [] => s
  | b :: bs => if h : k < 16 then (s.setV ⟨k, h⟩ b).setVFrom (k + 1) bs else s

/-! ## The return stack -/

/-- Push(w) (41_control_flow.md R120). -/
def push (s : State) (w : Word) : Except Raise State :=
  if h : s.sp.val < Config.stackCapacity then
    .ok (s.setStack (s.stack.set s.sp.val w) ⟨s.sp.val + 1, Nat.succ_lt_succ h⟩)
  else .error ⟨.stackOverflow, 0⟩

/-- Pop(): the popped value and the state after; the slot keeps its value (41_control_flow.md R121). -/
def pop (s : State) : Except Raise (Word × State) :=
  if h : 0 < s.sp.val then
    .ok (s.stack[s.sp.val - 1]'(by omega), s.setStack s.stack ⟨s.sp.val - 1, by omega⟩)
  else .error ⟨.stackUnderflow, 0⟩

/-! ## The display -/

/-- D[x][y]. -/
def Display.pixel (d : Display) (x : Fin 64) (y : Fin 32) : Bool := d[x.val][y.val]

/-- D[x][y] <- not D[x][y]. -/
def Display.flip (d : Display) (x : Fin 64) (y : Fin 32) : Display :=
  d.set x.val (d[x.val].set y.val (!d[x.val][y.val]))

/-- Every pixel off (40_display.md R110). -/
def Display.blank : Display := Vector.replicate 64 (Vector.replicate 32 false)

/-- Place(x0, y0, col, row) under a given DRAW_EDGE; none is the pseudocode's (false, -, -) (40_display.md R112). -/
def place (edge : Config.DrawEdge) (x0 y0 col row : Nat) : Option (Fin 64 × Fin 32) :=
  match edge with
  | .wrap => some (⟨(x0 + col) % 64, Nat.mod_lt _ (by decide)⟩, ⟨(y0 + row) % 32, Nat.mod_lt _ (by decide)⟩)
  | .clip =>
    if h : x0 % 64 + col < 64 ∧ y0 % 32 + row < 32 then some (⟨x0 % 64 + col, h.1⟩, ⟨y0 % 32 + row, h.2⟩) else none

/-- The inner step of the drawing loop: bit 7 - col of the row's byte, bit 7 leftmost (40_display.md R111). The pair is the
display and the collision so far. -/
def drawBit (edge : Config.DrawEdge) (x0 y0 row : Nat) (bits : Byte) (acc : Display × Bool) (col : Nat) : Display × Bool :=
  if bits.getLsbD (7 - col) then
    match place edge x0 y0 col row with
    | some (x, y) => (Display.flip acc.1 x y, acc.2 || Display.pixel acc.1 x y)
    | none => acc
  else acc

/-- One sprite row: columns 0 to 7 in order. -/
def drawRow (edge : Config.DrawEdge) (x0 y0 row : Nat) (bits : Byte) (acc : Display × Bool) : Display × Bool :=
  [0, 1, 2, 3, 4, 5, 6, 7].foldl (drawBit edge x0 y0 row bits) acc

/-- The sprite's rows in order, from row number `row` on. -/
def drawRows (edge : Config.DrawEdge) (x0 y0 : Nat) : Nat → List Byte → Display × Bool → Display × Bool
  | _, [], acc => acc
  | row, bits :: rest, acc => drawRows edge x0 y0 (row + 1) rest (drawRow edge x0 y0 row bits acc)

/-- The whole draw: the display after it, and whether a lit pixel was toggled (40_display.md R111, R113). -/
def drawSprite (edge : Config.DrawEdge) (x0 y0 : Nat) (sprite : List Byte) (d : Display) : Display × Bool :=
  drawRows edge x0 y0 0 sprite (d, false)

/-! ## Taking a fatal error, and committing -/

/-- The fatal path (60_exceptions.md R222) from `s`, the state with none of the Cycle's writes but the fetch's advance of
PC: PC back to pc0, FR recorded, RS = QUIT. `opcode` is none for a fetch fault. -/
def fatalPath (s : State) (pc0 : Word) (opcode : Option Word) (e : Raise) : State :=
  ((s.setPc pc0).setFr
    { valid := true, kind := e.kind, pc := pc0, opcode := opcode.getD 0, opcodeValid := opcode.isSome,
      addr := BitVec.ofNat 17 e.addr }).setRs .quit

/-- PC -> pc0 while an instruction executes: the fetch has added 2 (30_encoding.md R90). -/
def State.pc0 (s : State) : Word := s.pc - 2

/-- The end of an instruction's Cycle: its writes commit together, or a raise discards them all and takes the fatal path
(00_scope.md R9, 60_exceptions.md R221). `s` is the state the instruction started from. -/
def commit (i : Instr) (s : State) : Except Raise State → Answer
  | .ok t => .next t
  | .error e => .next (fatalPath s s.pc0 (some (encode i)) e)

/-- What an unknown opcode does under a given policy (30_encoding.md R86); `s` is the state after the fetch's advance. -/
def unknownOpcodeUnder (policy : Config.UnknownOpcodePolicy) (w : Word) (s : State) : Answer :=
  match policy with
  | .nop => .next s
  | .fatal => .next (fatalPath s s.pc0 (some w) ⟨.unknownOpcode, 0⟩)

end Sys2Proof.Machine
end

