-- ==== Sys2Proof/Machine/Flags.lean ====
section
/-! DEFINITION. The flag values written to VF (42_alu.md R152): each from the operands as they were before the instruction
(R138). -/

namespace Sys2Proof.Machine

/-- A flag as the byte VF holds: 1 or 0. -/
def flagByte (b : Bool) : Byte := if b then 1 else 0

/-- ADD carry: 1 iff a + b >= 256 (R146). -/
def carryFlag (a b : Byte) : Byte := flagByte (256 ≤ a.toNat + b.toNat)

/-- SUB and SUBN not-borrow of a - b: 1 iff a >= b (R147, R149). -/
def notBorrowFlag (a b : Byte) : Byte := flagByte (b.toNat ≤ a.toNat)

/-- SHR: the bit shifted out, old bit 0 (R148). -/
def shrFlag (a : Byte) : Byte := flagByte (a.getLsbD 0)

/-- SHL: the bit shifted out, old bit 7 (R150). -/
def shlFlag (a : Byte) : Byte := flagByte (a.getLsbD 7)

end Sys2Proof.Machine
end

