-- ==== Sys2Proof/Machine/Operands.lean ====
section
/-! DEFINITION. The operand forms (30_encoding.md R82) and the write forms the instruction families share. -/

namespace Sys2Proof.Machine

/-- zext_16(NNN) (R82). -/
def zext16 (nnn : BitVec 12) : Word := nnn.setWidth 16

/-- V[X][3:0], the key or glyph number (44_keys_timers.md R189, 43_index_memory.md R172). -/
def lowNibble (b : Byte) : Fin 16 := ⟨b.toNat % 16, Nat.mod_lt _ (by decide)⟩

/-- K[V[X][3:0]] (44_keys_timers.md R190). -/
def State.keyOf (s : State) (x : RegIdx) : Bool := s.keys[(lowNibble (s.getV x)).val]

/-- The lowest key from k on that is pressed, looking at `fuel` keys. -/
def lowestKeyFrom (ks : Keypad) (k : Nat) : Nat → Option RegIdx
  | 0 => none
  | fuel + 1 => if h : k < 16 then (if ks[k] then some ⟨k, h⟩ else lowestKeyFrom ks (k + 1) fuel) else none

/-- min of the pressed keys, if there is one (44_keys_timers.md R193). -/
def lowestKey (ks : Keypad) : Option RegIdx := lowestKeyFrom ks 0 16

/-- A register index as the byte stored in V[X] (44_keys_timers.md R193). -/
def keyByte (k : RegIdx) : Byte := BitVec.ofNat 8 k.val

/-- FONT_BASE + 5 * V[X][3:0] (43_index_memory.md R172). -/
def glyphAddr (b : Byte) : Word := BitVec.ofNat 16 (Config.fontBase + 5 * (lowNibble b).val)

/-- The hundreds, tens and ones digits (43_index_memory.md R173). -/
def bcdDigits (b : Byte) : List Byte :=
  [BitVec.ofNat 8 (b.toNat / 100), BitVec.ofNat 8 (b.toNat / 10 % 10), BitVec.ofNat 8 (b.toNat % 10)]

/-- V[k], ..., V[k + n - 1], as far as the file goes. -/
def State.getVFrom (s : State) (k : Nat) : Nat → List Byte
  | 0 => []
  | n + 1 => if h : k < 16 then s.getV ⟨k, h⟩ :: s.getVFrom (k + 1) n else []

/-- V0..VX (30_encoding.md R82). -/
def State.regsUpTo (s : State) (x : RegIdx) : List Byte := s.getVFrom 0 (x.val + 1)

/-- I after FX55 and FX65 under a given LOADSTORE_I_INCREMENT (43_index_memory.md R169). -/
def indexAfterUnder (inc : Config.LoadStoreIncrement) (x : RegIdx) (i : Word) : Word :=
  match inc with
  | .none => i
  | .x => i + BitVec.ofNat 16 x.val
  | .xPlusOne => i + BitVec.ofNat 16 (x.val + 1)

/-- A skip: PC + 2 more if the condition holds (41_control_flow.md R131). -/
def skipIf (c : Bool) (s : State) : State := if c then s.setPc (s.pc + 2) else s

/-- The result to V[X] first, the flag to VF last (42_alu.md R138). -/
def State.setResultFlag (s : State) (x : RegIdx) (r flag : Byte) : State := (s.setV x r).setV vf flag

/-- OR, AND and XOR under a given LOGIC_VF_RESET (42_alu.md R139, R143 to R145). -/
def logicUnder (vfReset : Bool) (f : Byte → Byte → Byte) (x y : RegIdx) (s : State) : State :=
  let t := s.setV x (f (s.getV x) (s.getV y))
  if vfReset then t.setV vf 0 else t

/-- The register shifted under a given SHIFT_SOURCE (42_alu.md R148, R150). -/
def shiftOperandUnder (src : Config.ShiftSource) (x y : RegIdx) (s : State) : Byte :=
  match src with
  | .vx => s.getV x
  | .vy => s.getV y

/-- 8XY6 under a given SHIFT_SOURCE (42_alu.md R148). -/
def shrUnder (src : Config.ShiftSource) (x y : RegIdx) (s : State) : State :=
  let a := shiftOperandUnder src x y s
  s.setResultFlag x (a >>> 1) (shrFlag a)

/-- 8XYE under a given SHIFT_SOURCE (42_alu.md R150). -/
def shlUnder (src : Config.ShiftSource) (x y : RegIdx) (s : State) : State :=
  let a := shiftOperandUnder src x y s
  s.setResultFlag x (a <<< 1) (shlFlag a)

/-- DXYN under a given DRAW_EDGE: all rows are read before any pixel changes, VF is written last (40_display.md R111). -/
def drawUnder (edge : Config.DrawEdge) (x y : RegIdx) (n : Nat) (s : State) : Except Raise State :=
  match readBytes s.mem s.i.toNat n with
  | .error e => .error e
  | .ok sprite =>
    let r := drawSprite edge (s.getV x).toNat (s.getV y).toNat sprite s.display
    .ok ((s.setDisplay r.1).setV vf (flagByte r.2))

/-- FX33 under a given FONT_WRITE_POLICY (43_index_memory.md R173). -/
def storeBcdUnder (policy : Config.FontWritePolicy) (x : RegIdx) (s : State) : Except Raise State :=
  match writeBytesUnder policy s.mem s.i.toNat (bcdDigits (s.getV x)) with
  | .error e => .error e
  | .ok m => .ok (s.setMem m)

/-- FX55 under given policies (43_index_memory.md R174). -/
def storeRegsUnder (policy : Config.FontWritePolicy) (inc : Config.LoadStoreIncrement) (x : RegIdx) (s : State) :
    Except Raise State :=
  match writeBytesUnder policy s.mem s.i.toNat (s.regsUpTo x) with
  | .error e => .error e
  | .ok m => .ok ((s.setMem m).setI (indexAfterUnder inc x s.i))

/-- FX65 under a given LOADSTORE_I_INCREMENT (43_index_memory.md R175). -/
def loadRegsUnder (inc : Config.LoadStoreIncrement) (x : RegIdx) (s : State) : Except Raise State :=
  match readBytes s.mem s.i.toNat (x.val + 1) with
  | .error e => .error e
  | .ok bs => .ok ((s.setVFrom 0 bs).setI (indexAfterUnder inc x s.i))

end Sys2Proof.Machine
end

