-- ==== Sys2Proof/Machine/Alu.lean ====
section
/-! DEFINITION. Meanings of the register load, arithmetic, logic and random instructions (42_alu.md). Operands are read
before anything is written; a flag is written last (R138). Byte arithmetic wraps modulo 256 (R152). -/

namespace Sys2Proof.Machine

/-- LD Vx, byte (R140). -/
def execLdByte (x : RegIdx) (nn : Byte) (s : State) : Answer :=
  commit (.ldByte x nn) s (.ok (s.setV x nn))

/-- ADD Vx, byte (R141): no flag. -/
def execAddByte (x : RegIdx) (nn : Byte) (s : State) : Answer :=
  commit (.addByte x nn) s (.ok (s.setV x (s.getV x + nn)))

/-- LD Vx, Vy (R142). -/
def execLdReg (x y : RegIdx) (s : State) : Answer :=
  commit (.ldReg x y) s (.ok (s.setV x (s.getV y)))

/-- OR Vx, Vy (R143). -/
def execOrReg (x y : RegIdx) (s : State) : Answer :=
  commit (.orReg x y) s (.ok (logicUnder Config.logicVfReset (fun a b => a ||| b) x y s))

/-- AND Vx, Vy (R144). -/
def execAndReg (x y : RegIdx) (s : State) : Answer :=
  commit (.andReg x y) s (.ok (logicUnder Config.logicVfReset (fun a b => a &&& b) x y s))

/-- XOR Vx, Vy (R145). -/
def execXorReg (x y : RegIdx) (s : State) : Answer :=
  commit (.xorReg x y) s (.ok (logicUnder Config.logicVfReset (fun a b => a ^^^ b) x y s))

/-- ADD Vx, Vy (R146). -/
def execAddReg (x y : RegIdx) (s : State) : Answer :=
  commit (.addReg x y) s
    (.ok (s.setResultFlag x (s.getV x + s.getV y) (carryFlag (s.getV x) (s.getV y))))

/-- SUB Vx, Vy (R147). -/
def execSubReg (x y : RegIdx) (s : State) : Answer :=
  commit (.subReg x y) s
    (.ok (s.setResultFlag x (s.getV x - s.getV y) (notBorrowFlag (s.getV x) (s.getV y))))

/-- SHR Vx, Vy (R148). -/
def execShr (x y : RegIdx) (s : State) : Answer :=
  commit (.shr x y) s (.ok (shrUnder Config.shiftSource x y s))

/-- SUBN Vx, Vy (R149). -/
def execSubn (x y : RegIdx) (s : State) : Answer :=
  commit (.subn x y) s
    (.ok (s.setResultFlag x (s.getV y - s.getV x) (notBorrowFlag (s.getV y) (s.getV x))))

/-- SHL Vx, Vy (R150). -/
def execShl (x y : RegIdx) (s : State) : Answer :=
  commit (.shl x y) s (.ok (shlUnder Config.shiftSource x y s))

/-- RND Vx, byte (R151), with the Cycle's random byte. -/
def execRnd (x : RegIdx) (nn : Byte) (s : State) : Answer :=
  commit (.rnd x nn) s (.ok (s.setV x (s.randomByte &&& nn)))

end Sys2Proof.Machine
end

