-- ==== Sys2Proof/Machine/Control.lean ====
section
/-! DEFINITION. Meanings of the control-flow and stack instructions (41_control_flow.md). While one runs, PC holds pc0 + 2:
the value CALL pushes and the skips add to (10_state.md R22). No target is checked (20_memory.md R55). -/

namespace Sys2Proof.Machine

/-- RET (R122): PC <- Pop(). -/
def execRet (x : BitVec 4) (s : State) : Answer :=
  commit (.ret x) s
    (match pop s with
      | .ok (w, t) => .ok (t.setPc w)
      | .error e => .error e)

/-- JP addr (R123). -/
def execJp (nnn : BitVec 12) (s : State) : Answer :=
  commit (.jp nnn) s (.ok (s.setPc (zext16 nnn)))

/-- CALL addr (R124): Push(PC), then PC <- zext_16(NNN). -/
def execCall (nnn : BitVec 12) (s : State) : Answer :=
  commit (.call nnn) s
    (match push s s.pc with
      | .ok t => .ok (t.setPc (zext16 nnn))
      | .error e => .error e)

/-- SE Vx, byte (R125). -/
def execSeByte (x : RegIdx) (nn : Byte) (s : State) : Answer :=
  commit (.seByte x nn) s (.ok (skipIf (s.getV x == nn) s))

/-- SNE Vx, byte (R126). -/
def execSneByte (x : RegIdx) (nn : Byte) (s : State) : Answer :=
  commit (.sneByte x nn) s (.ok (skipIf (s.getV x != nn) s))

/-- SE Vx, Vy (R127). -/
def execSeReg (x y : RegIdx) (n : BitVec 4) (s : State) : Answer :=
  commit (.seReg x y n) s (.ok (skipIf (s.getV x == s.getV y) s))

/-- SNE Vx, Vy (R128). -/
def execSneReg (x y : RegIdx) (n : BitVec 4) (s : State) : Answer :=
  commit (.sneReg x y n) s (.ok (skipIf (s.getV x != s.getV y) s))

/-- JP V0, addr (R129): the sum is at most 0x10FE, so nothing is cut off. -/
def execJpV0 (nnn : BitVec 12) (s : State) : Answer :=
  commit (.jpV0 nnn) s (.ok (s.setPc (zext16 nnn + (s.getV 0).setWidth 16)))

end Sys2Proof.Machine
end

