-- ==== Sys2Proof/Machine/DisplayOps.lean ====
section
/-! DEFINITION. Meanings of the display instructions (40_display.md). A meaning starts after the fetch: PC holds pc0 + 2
(30_encoding.md R90). -/

namespace Sys2Proof.Machine

/-- CLS (R110). -/
def execCls (x : BitVec 4) (s : State) : Answer :=
  commit (.cls x) s (.ok (s.setDisplay Display.blank))

/-- DRW Vx, Vy, nibble (R111 to R114). -/
def execDrw (x y : RegIdx) (n : Fin 16) (s : State) : Answer :=
  commit (.drw x y n) s (drawUnder Config.drawEdge x y n.val s)

end Sys2Proof.Machine
end

