-- ==== Sys2Proof/Machine/IndexMemory.lean ====
section
/-! DEFINITION. Meanings of the index and memory instructions (43_index_memory.md). -/

namespace Sys2Proof.Machine

/-- LD I, addr (R170). -/
def execLdI (nnn : BitVec 12) (s : State) : Answer :=
  commit (.ldI nnn) s (.ok (s.setI (zext16 nnn)))

/-- ADD I, Vx (R171): 16-bit wrap, no flag. -/
def execAddI (x : RegIdx) (s : State) : Answer :=
  commit (.addI x) s (.ok (s.setI (s.i + (s.getV x).setWidth 16)))

/-- LD F, Vx (R172). -/
def execLdF (x : RegIdx) (s : State) : Answer :=
  commit (.ldF x) s (.ok (s.setI (glyphAddr (s.getV x))))

/-- LD B, Vx (R173). -/
def execLdB (x : RegIdx) (s : State) : Answer :=
  commit (.ldB x) s (storeBcdUnder Config.fontWritePolicy x s)

/-- LD [I], Vx (R174). -/
def execStore (x : RegIdx) (s : State) : Answer :=
  commit (.store x) s (storeRegsUnder Config.fontWritePolicy Config.loadStoreIncrement x s)

/-- LD Vx, [I] (R175). -/
def execLoad (x : RegIdx) (s : State) : Answer :=
  commit (.load x) s (loadRegsUnder Config.loadStoreIncrement x s)

end Sys2Proof.Machine
end

