-- ==== Sys2Proof/Machine/KeysTimers.lean ====
section
/-! DEFINITION. Meanings of the keypad and timer instructions (44_keys_timers.md). -/

namespace Sys2Proof.Machine

/-- SKP Vx (R190). -/
def execSkp (x : RegIdx) (s : State) : Answer :=
  commit (.skp x) s (.ok (skipIf (s.keyOf x) s))

/-- SKNP Vx (R191). -/
def execSknp (x : RegIdx) (s : State) : Answer :=
  commit (.sknp x) s (.ok (skipIf (!s.keyOf x) s))

/-- LD Vx, DT (R192). -/
def execLdVxDt (x : RegIdx) (s : State) : Answer :=
  commit (.ldVxDt x) s (.ok (s.setV x s.dt))

/-- LD Vx, K (R193): the lowest pressed key, or PC back to this instruction. -/
def execLdVxK (x : RegIdx) (s : State) : Answer :=
  commit (.ldVxK x) s
    (.ok (match lowestKey s.keys with
      | some k => s.setV x (keyByte k)
      | none => s.setPc (s.pc - 2)))

/-- LD DT, Vx (R194). -/
def execLdDtVx (x : RegIdx) (s : State) : Answer :=
  commit (.ldDtVx x) s (.ok (s.setDt (s.getV x)))

/-- LD ST, Vx (R195). -/
def execLdStVx (x : RegIdx) (s : State) : Answer :=
  commit (.ldStVx x) s (.ok (s.setSt (s.getV x)))

end Sys2Proof.Machine
end

