-- ==== Sys2Proof/Machine/Cycle.lean ====
section
/-! DEFINITION. The fetch-decode-execute cycle (30_encoding.md R90 to R92), the host's other events (60_exceptions.md R240,
R250 to R260) and construction (70_reset_and_hazards.md R270). -/

namespace Sys2Proof.Machine

/-- A Cycle begins: its random byte is the event's, or the next free value in a Cycle the model supplies itself (log 3). -/
def State.beginCycle (s : State) : Option Byte → State
  | some r => s.setDraw (some r) s.draws
  | none => s.setDraw none (s.draws + 1)

/-- Fetch, decode and execute, whatever RS is (30_encoding.md R90); the state has its random byte. -/
def fetchDecodeExecute (s : State) : Answer :=
  match fetch16 s.mem s.pc.toNat with
  | .error e => .next (fatalPath s s.pc none e)
  | .ok w =>
    match decode w with
    | .ok i => exec i (s.setPc (s.pc + 2))
    | .error _ => unknownOpcodeUnder Config.unknownOpcodePolicy w (s.setPc (s.pc + 2))

/-- Cycle(r): nothing while PAUSED or QUIT (30_encoding.md R91). -/
def runCycle (r : Option Byte) (s : State) : Answer :=
  match s.rs with
  | .running => fetchDecodeExecute (s.beginCycle r)
  | .paused => .next s
  | .quit => .next s

/-- A timer's decrement, floor 0 (60_exceptions.md R240). -/
def timerTick (b : Byte) : Byte := if b = 0 then 0 else b - 1

/-- Tick (60_exceptions.md R240). -/
def runTick (s : State) : State :=
  match s.rs with
  | .quit => s
  | .running => (s.setDt (timerTick s.dt)).setSt (timerTick s.st)
  | .paused => (s.setDt (timerTick s.dt)).setSt (timerTick s.st)

/-- SetKeys(k) (60_exceptions.md R255, R260). -/
def runSetKeys (k : Keypad) (s : State) : State :=
  match s.rs with
  | .quit => s
  | .running => s.setKeypad k
  | .paused => s.setKeypad k

/-- PauseToggle (60_exceptions.md R251, R252). -/
def runPauseToggle (s : State) : State :=
  match s.rs with
  | .running => s.setRs .paused
  | .paused => s.setRs .running
  | .quit => s

/-- Quit (60_exceptions.md R251, R253). -/
def runQuit (s : State) : State := s.setRs .quit

/-- Init(rom): the block after construction, or none where the image is longer than ROM_MAX
(70_reset_and_hazards.md R270, 60_exceptions.md R225). -/
def initState (rom : List Byte) : Option State :=
  if rom.length ≤ Config.romMax then some (State.reset.setMem (Memory.place [] Config.romBase rom)) else none

/-- Init as an event: the whole block is replaced; the host's later events and the model's draw counter, which are not the
block's, stay (log 4). -/
def runInit (rom : List Byte) (s : State) : Answer :=
  match initState rom with
  | some t => .next ((t.setInbox s.inbox).setDraw none s.draws)
  | none => .fault .romTooLarge

/-- One event, already taken from the inbox (60_exceptions.md R260). -/
def handleEvent (e : Event) (s : State) : Answer :=
  match e with
  | .init rom => runInit rom s
  | .cycle r => runCycle (some r) s
  | .tick => .next (runTick s)
  | .setKeys k => .next (runSetKeys k s)
  | .pauseToggle => .next (runPauseToggle s)
  | .quit => .next (runQuit s)

/-- The next event: the oldest of the inbox; with none there, a Cycle with a free random byte (log 1, log 2). -/
def nextEvent (s : State) : Answer :=
  match s.inbox with
  | e :: es => handleEvent e (s.setInbox es)
  | [] => runCycle none s

/-- The address a word is placed at so that the next fetch reads it: PC, or ROM_BASE where a fetch at PC would fault. -/
def fetchSite (s : State) : Word :=
  if s.pc.toNat + 1 < Config.memSize then s.pc else BitVec.ofNat 16 Config.romBase

/-- `s` about to fetch the word `w`: the word in memory at PC, RUNNING, and no event before the Cycle (log 4). -/
def placeFetchWord (s : State) (w : Word) : State :=
  (((s.setMem (Memory.place s.mem (fetchSite s).toNat (bytesOfWord w))).setPc (fetchSite s)).setRs .running).setInbox []

end Sys2Proof.Machine
end

