-- ==== Sys2Proof/Machine/Step.lean ====
section
/-! DEFINITION. The step: one event of the host (60_exceptions.md R260). -/

namespace Sys2Proof.Machine

/-- One atomic transition of the block (00_scope.md R4). -/
def step (s : State) : Host.Outcome State Fault Refusal := nextEvent s

/-- `s` with the instruction word `w` (numbered as spec/opcode_table.json numbers it; bits from `nbits` on are zero) where
the next step fetches. -/
def State.withFetchWord (s : State) (nbits w : Nat) : State :=
  placeFetchWord s (BitVec.ofNat 16 (w % 2 ^ nbits))

end Sys2Proof.Machine
end

