-- ==== Sys2Proof/Machine/Ports.lean ====
section
/-! DEFINITION. The block's outputs, functions of state read between events (60_exceptions.md R261, R246, R247, R266), and
the reference host frame as a list of events (R262). -/

namespace Sys2Proof.Machine

/-- RS as the 2-bit output (10_state.md R28). -/
def RunState.code : RunState → BitVec 2
  | .running => 0
  | .paused => 1
  | .quit => 2

/-- FR.kind as its 4-bit code (60_exceptions.md R220). -/
def FatalKind.code : FatalKind → BitVec 4
  | .none => 0
  | .stackOverflow => 1
  | .stackUnderflow => 2
  | .memOobFetch => 3
  | .memOobRead => 4
  | .memOobWrite => 5
  | .fontWrite => 6
  | .unknownOpcode => 7

/-- sound_on = (ST != 0) (10_state.md R34). -/
def State.soundOn (s : State) : Bool := s.st != 0

/-- Bit n of the display port: pixel (x, y) is bit y * 64 + x (60_exceptions.md R246). -/
def State.displayBit (s : State) (n : Fin 2048) : Bool :=
  Display.pixel s.display ⟨n.val % 64, Nat.mod_lt _ (by decide)⟩ ⟨n.val / 64, by omega⟩

/-- The outputs of R261 but the trace. -/
structure Outputs where
  /-- The 2048-bit display port (R246). -/
  display : Vector Bool 2048
  /-- The audio signal (R247). -/
  soundOn : Bool
  /-- DT. -/
  dt : Byte
  /-- ST. -/
  st : Byte
  /-- RS. -/
  runState : BitVec 2
  /-- FR. -/
  fault : FaultRecord
  deriving DecidableEq, Repr

/-- Reading the outputs; it changes nothing (R261). -/
def State.outputs (s : State) : Outputs where
  display := Vector.ofFn s.displayBit
  soundOn := s.soundOn
  dt := s.dt
  st := s.st
  runState := s.rs.code
  fault := s.fr

/-- A record of the trace stream (R266). -/
inductive TraceRecord
  /-- A Cycle that ran: pc0 and the word. -/
  | cycle (pc0 w : Word)
  /-- An unknown opcode under NOP. -/
  | unknownOpcode (pc0 w : Word)
  /-- A fatal error with its record. -/
  | fatal (kind : FatalKind) (fr : FaultRecord)
  deriving DecidableEq, Repr

/-- The records of a Cycle run from `s` and ending in `t`; `tracing` is the host's setting (R266). No state reads them.
DESIGN CHOICE (log 14), safe for states: R266 says that a traced Cycle may emit its record, and gives no order among the records of one
Cycle; here it always does, before the Cycle's unknown-opcode or fatal record, but for a fetch fault, which has no word. -/
def cycleTrace (tracing : Bool) (s t : State) : List TraceRecord :=
  match s.rs with
  | .running =>
    match fetch16 s.mem s.pc.toNat with
    | .error _ => [.fatal t.fr.kind t.fr]
    | .ok w =>
      (if tracing then [.cycle s.pc w] else []) ++
      (match decode w with
        | .ok _ => if t.fr.valid then [.fatal t.fr.kind t.fr] else []
        | .error _ => if t.fr.valid then [.fatal t.fr.kind t.fr] else [.unknownOpcode s.pc w])
  | .paused => []
  | .quit => []

/-- The records of the step from `s` to `t`: those of its Cycle, if its event is one (R266). -/
def stepTrace (tracing : Bool) (s t : State) : List TraceRecord :=
  match s.inbox with
  | [] => cycleTrace tracing s t
  | .cycle _ :: _ => cycleTrace tracing s t
  | _ => []

/-- The events of one reference host frame, in the order of R262 and R231: at most one SetKeys, the PauseToggles and Quit the
input poll produced, the Cycles with their random bytes, the Ticks. -/
def referenceFrame (keys : Option Keypad) (control : List Event) (bytes : List Byte) (ticks : Nat) : List Event :=
  keys.toList.map .setKeys ++ control ++ bytes.map .cycle ++ List.replicate ticks .tick

end Sys2Proof.Machine
end

