-- ==== Sys2Proof/Safety.lean ====
section
/-! DEFINITION. What claims about the machine are stated in: the invariant, a run without a fatal error, and frames. -/

namespace Sys2Proof.Machine

/-- The font bytes hold FONT_DATA (20_memory.md R60). -/
def Memory.FontIntact (m : Memory) : Prop := ∀ a, isFontAddr a = true → Memory.read m a = initialByte a

/-- FR is clear, or records one fatal error of a block that is in QUIT (10_state.md R29, 60_exceptions.md R222, R223): the
opcode is valid but for a fetch fault, where it is 0. -/
def State.FaultRecordOk (s : State) : Prop :=
  (s.fr.valid = false ∧ s.fr = FaultRecord.clear) ∨
  (s.fr.valid = true ∧ s.rs = .quit ∧ s.fr.kind ≠ .none ∧ s.fr.opcodeValid = (s.fr.kind != .memOobFetch) ∧
    (s.fr.opcodeValid = false → s.fr.opcode = 0))

/-- The invariant every step keeps. -/
structure State.Inv (s : State) : Prop where
  /-- Memory is in its canonical form. -/
  memory : Memory.wf s.mem = true
  /-- No program has changed the font. -/
  font : s.mem.FontIntact
  /-- FR and RS fit together. -/
  record : s.FaultRecordOk

/-- `n` steps, one event each, stopping at a fault. -/
def runFor : Nat → State → Answer
  | 0, s => .next s
  | n + 1, s =>
    match step s with
    | .next t => runFor n t
    | .fault r => .fault r
    | .refused r => .refused r

/-- Every word that `p` admits, under either STRICT_DECODE, decodes to the instruction `i` makes of its fields: a row of
30_encoding.md R84. -/
def Row (p : Bool → Word → Prop) (i : Word → Instr) : Prop :=
  ∀ strict w, p strict w → decodeUnder strict w = .ok (i w)

/-- The words of a class, whatever their other bits. -/
def OfClass (c : BitVec 4) (_ : Bool) (w : Word) : Prop := fieldC w = c

/-- The words of a class with one sub-code N (30_encoding.md R83). -/
def OfClassN (c n : BitVec 4) (_ : Bool) (w : Word) : Prop := fieldC w = c ∧ fieldN w = n

/-- The words of a class with one sub-code NN (30_encoding.md R83). -/
def OfClassNN (c : BitVec 4) (nn : Byte) (_ : Bool) (w : Word) : Prop := fieldC w = c ∧ fieldNN w = nn

/-- The words of class 0x0 with one sub-code NN; STRICT_DECODE wants X = 0 (30_encoding.md R83). -/
def OfClass0 (nn : Byte) (strict : Bool) (w : Word) : Prop :=
  fieldC w = 0x0 ∧ fieldNN w = nn ∧ (strict = true → fieldX w = 0)

/-- The words of class 0x5 or 0x9; STRICT_DECODE wants N = 0 (30_encoding.md R83). -/
def OfClassXY (c : BitVec 4) (strict : Bool) (w : Word) : Prop := fieldC w = c ∧ (strict = true → fieldN w = 0)

/-- No fatal error has happened. -/
def State.Safe (s : State) : Prop := s.fr.valid = false

/-- Every address reads in `t` as in `s`. -/
def SameMemory (s t : State) : Prop := ∀ a, Memory.read t.mem a = Memory.read s.mem a

/-- Every address outside the `n` bytes from `base` on reads in `t` as in `s`. -/
def SameMemoryOutside (base n : Nat) (s t : State) : Prop :=
  ∀ a, ¬ (base ≤ a ∧ a < base + n) → Memory.read t.mem a = Memory.read s.mem a

/-- Every general register but those of `rs` holds in `t` what it holds in `s`. -/
def SameRegsBut (rs : List RegIdx) (s t : State) : Prop := ∀ r, r ∉ rs → t.getV r = s.getV r

/-- Everything but the general registers, PC, I and memory is the same in `t` as in `s`: stack, timers, display, keypad,
run state, fault record, and what comes from outside the block. -/
def SameUnits (s t : State) : Prop :=
  t.stack = s.stack ∧ t.sp = s.sp ∧ t.dt = s.dt ∧ t.st = s.st ∧ t.display = s.display ∧ t.keys = s.keys ∧
  t.rs = s.rs ∧ t.fr = s.fr ∧ t.inbox = s.inbox ∧ t.rnd = s.rnd ∧ t.draws = s.draws

/-- `t` differs from `s` in the general registers `rs` at most. -/
def OnlyRegs (rs : List RegIdx) (s t : State) : Prop :=
  SameRegsBut rs s t ∧ t.i = s.i ∧ t.pc = s.pc ∧ SameMemory s t ∧ SameUnits s t

/-- `t` differs from `s` in PC at most. -/
def OnlyPc (s t : State) : Prop := SameRegsBut [] s t ∧ t.i = s.i ∧ SameMemory s t ∧ SameUnits s t

/-- `t` differs from `s` in I at most. -/
def OnlyIndex (s t : State) : Prop := SameRegsBut [] s t ∧ t.pc = s.pc ∧ SameMemory s t ∧ SameUnits s t

/-- `t` differs from `s` in the `n` bytes of memory from `base` on at most. -/
def OnlyMemory (base n : Nat) (s t : State) : Prop :=
  SameRegsBut [] s t ∧ t.i = s.i ∧ t.pc = s.pc ∧ SameMemoryOutside base n s t ∧ SameUnits s t

/-- `t` is `s`, the state an instruction `i` runs in, after a fatal error of kind `k` with FR.addr = `addr`: PC is back at
pc0, FR is recorded, RS is QUIT, and nothing else has changed (60_exceptions.md R222). -/
def FatalEntry (k : FatalKind) (addr : Nat) (i : Instr) (s t : State) : Prop :=
  t = { s with
        pc := s.pc - 2
        rs := .quit
        fr := { valid := true, kind := k, pc := s.pc - 2, opcode := encode i, opcodeValid := true,
                addr := BitVec.ofNat 17 addr } }

/-- `t` is `s`, the state an instruction runs in, after a fatal error of kind `k`: PC is back at pc0, RS is QUIT, and nothing
else but FR has changed (60_exceptions.md R221). What FR holds beside the kind is FatalEntry's. -/
def FatalStop (k : FatalKind) (s t : State) : Prop :=
  t.fr.valid = true ∧ t.fr.kind = k ∧ t.rs = .quit ∧ t.pc = s.pc - 2 ∧
  t = { s with pc := t.pc, rs := t.rs, fr := t.fr }

/-- Some 1 bit of the `n` sprite rows at `base`, drawn from (x0, y0), falls on the pixel (x, y) (40_display.md R111, R112). -/
def Covers (edge : Config.DrawEdge) (m : Memory) (base x0 y0 n : Nat) (x : Fin 64) (y : Fin 32) : Prop :=
  ∃ row col, row < n ∧ col < 8 ∧ (Memory.read m (base + row)).getLsbD (7 - col) = true ∧
    match edge with
    | .wrap => (x0 + col) % 64 = x.val ∧ (y0 + row) % 32 = y.val
    | .clip => x0 % 64 + col = x.val ∧ y0 % 32 + row = y.val

/-- The outcome of drawing: a covered pixel is inverted, every other is kept, and VF is 1 exactly when a covered pixel was
on (40_display.md R111, R113). -/
def Drawn (edge : Config.DrawEdge) (base x0 y0 n : Nat) (s t : State) : Prop :=
  (∀ x y, Covers edge s.mem base x0 y0 n x y → Display.pixel t.display x y = !Display.pixel s.display x y) ∧
  (∀ x y, ¬ Covers edge s.mem base x0 y0 n x y → Display.pixel t.display x y = Display.pixel s.display x y) ∧
  ((∃ x y, Covers edge s.mem base x0 y0 n x y ∧ Display.pixel s.display x y = true) → t.getV vf = 1) ∧
  ((¬ ∃ x y, Covers edge s.mem base x0 y0 n x y ∧ Display.pixel s.display x y = true) → t.getV vf = 0)

/-- The `n` bytes from `base` on are memory, and none is a font byte (20_memory.md R51, R52). -/
def Storable (base n : Nat) : Prop := ∀ k, k < n → base + k < Config.memSize ∧ isFontAddr (base + k) = false

end Sys2Proof.Machine
end

