-- ==== Sys2Proof/Certificates/Slice0/Obligations.lean ====
section
/-! DEFINITION. The statements for the provers. In a statement about an instruction, `s` is the state it runs in: after the
fetch, so PC holds pc0 + 2 (10_state.md R22). A statement about an instruction begins with its row of the opcode map. -/

open Sys2Proof Sys2Proof.Machine

/-! ## Encoding -/

/-- Words written out from the encodings of 30_encoding.md R84 decode to their instructions; ignored nibbles are 1 and B. -/
def Obligations.SpecWordsDecode : Prop :=
  decode 0x01E0 = .ok (.cls 1) ∧ decode 0x00EE = .ok (.ret 0) ∧ decode 0x1ABC = .ok (.jp 0xABC) ∧
  decode 0x5AB3 = .ok (.seReg 0xA 0xB 3) ∧ decode 0x8127 = .ok (.subn 1 2) ∧ decode 0xD123 = .ok (.drw 1 2 3) ∧
  decode 0xE5A1 = .ok (.sknp 5) ∧ decode 0xF255 = .ok (.store 2) ∧ decode 0x8AB8 = .error (.unknownClass8 0x8AB8) ∧
  decode 0xF030 = .error (.unknownClassF 0xF030)

/-- R81: the six fields are the word's bits, whatever the word is. -/
def Obligations.FieldsAreTheWordsBits : Prop :=
  ∀ w : Word,
    (fieldC w).toNat = w.toNat / 4096 ∧ (fieldX w).toNat = w.toNat / 256 % 16 ∧ (fieldY w).toNat = w.toNat / 16 % 16 ∧
    (fieldN w).toNat = w.toNat % 16 ∧ (fieldNN w).toNat = w.toNat % 256 ∧ (fieldNNN w).toNat = w.toNat % 4096

/-- Decoding the encoding of a well-formed instruction gives it back, under either STRICT_DECODE. -/
def Obligations.DecodeOfEncodeIsTheInstruction : Prop :=
  ∀ (strict : Bool) (i : Instr), i.wellFormedUnder strict = true → decodeUnder strict (encode i) = .ok i

/-- A decoded instruction is well-formed and keeps every bit of its word, the ignored ones too. -/
def Obligations.EncodeOfDecodeIsTheWord : Prop :=
  ∀ (strict : Bool) (w : Word) (i : Instr), decodeUnder strict w = .ok i →
    encode i = w ∧ i.wellFormedUnder strict = true

/-- The unknown opcodes, under either STRICT_DECODE (the spec's decision D6). -/
def Obligations.UnknownOpcodesAreExactlyTheListedWords : Prop :=
  ∀ (strict : Bool) (w : Word),
    (∃ e, decodeUnder strict w = .error e) ↔
      (fieldC w = 0x0 ∧ fieldNN w ∉ [0xE0, 0xEE]) ∨
      (fieldC w = 0x8 ∧ fieldN w ∈ [0x8, 0x9, 0xA, 0xB, 0xC, 0xD, 0xF]) ∨
      (fieldC w = 0xE ∧ fieldNN w ∉ [0x9E, 0xA1]) ∨
      (fieldC w = 0xF ∧ fieldNN w ∉ [0x07, 0x0A, 0x15, 0x18, 0x1E, 0x29, 0x33, 0x55, 0x65]) ∨
      (strict = true ∧
        ((fieldC w = 0x0 ∧ fieldX w ≠ 0) ∨ (fieldC w = 0x5 ∧ fieldN w ≠ 0) ∨ (fieldC w = 0x9 ∧ fieldN w ≠ 0)))

/-! ## The step -/

/-- A running step whose bytes at PC decode to `i` is `exec i`, PC moved on by 2, with the Cycle event's random byte, or, where
no event waits, a free one (the model's choice, log 2 and log 3). -/
def Obligations.StepRunsTheDecodedInstruction : Prop :=
  ∀ (s : State) (i : Instr), s.rs = .running → s.pc.toNat + 1 < Config.memSize →
    decode (wordOfBytes (Memory.read s.mem s.pc.toNat) (Memory.read s.mem (s.pc.toNat + 1))) = .ok i →
    (s.inbox = [] → step s = exec i { s with pc := s.pc + 2, rnd := none, draws := s.draws + 1 }) ∧
    (∀ r es, s.inbox = .cycle r :: es →
      step s = exec i { s with pc := s.pc + 2, rnd := some r, inbox := es })

/-- A word placed by withFetchWord is the next instruction run, from every state with a well-formed memory: at PC, or at 0x200
where a fetch at PC would leave memory (log 4). Its random byte is a free one (log 3). -/
def Obligations.PlacedWordIsTheNextInstruction : Prop :=
  ∀ (s : State) (i : Instr), Memory.wf s.mem = true → i.wellFormed = true →
    (s.pc.toNat + 1 < Config.memSize → fetchSite s = s.pc) ∧ (Config.memSize ≤ s.pc.toNat + 1 → fetchSite s = 0x200) ∧
    ∃ u : State, step (s.withFetchWord 16 (encode i).toNat) = exec i u ∧ u.pc = fetchSite s + 2 ∧
      fetch16 u.mem (fetchSite s).toNat = .ok (encode i) ∧ SameMemoryOutside (fetchSite s).toNat 2 s u ∧
      u = { s with mem := u.mem, pc := u.pc, rs := .running, inbox := [], rnd := none, draws := s.draws + 1 }

/-- A fetch that leaves memory is fatal: PC stays, FR has no opcode and the lowest address outside (the spec's decisions D18,
D20, D21). -/
def Obligations.FetchBeyondMemoryIsFatal : Prop :=
  ∀ (s : State) (r : Byte) (es : List Event), s.rs = .running → s.inbox = .cycle r :: es →
    Config.memSize ≤ s.pc.toNat + 1 →
    step s = .next { s with
      inbox := es
      rnd := some r
      rs := .quit
      fr := { valid := true, kind := .memOobFetch, pc := s.pc, opcode := 0, opcodeValid := false,
              addr := BitVec.ofNat 17 (max s.pc.toNat 0x1000) } }

/-- An unknown opcode only moves PC on under the policy NOP, and under FATAL records the word (the spec's decision D5). -/
def Obligations.UnknownOpcodeOnlyAdvancesPc : Prop :=
  (∀ (s : State) (r : Byte) (es : List Event) (w : Word) (e : DecodeReject), s.rs = .running →
    s.inbox = .cycle r :: es → fetch16 s.mem s.pc.toNat = .ok w → decode w = .error e →
    step s = .next { s with inbox := es, rnd := some r, pc := s.pc + 2 }) ∧
  (∀ (s : State) (w : Word), unknownOpcodeUnder .fatal w { s with pc := s.pc + 2 } =
    .next { s with
      rs := .quit
      fr := { valid := true, kind := .unknownOpcode, pc := s.pc, opcode := w, opcodeValid := true, addr := 0 } })

/-- R91: a Cycle in PAUSED or QUIT changes no state; the event is taken from the host's list. -/
def Obligations.CycleOutsideRunningChangesNothing : Prop :=
  ∀ (s : State) (r : Byte) (es : List Event), s.rs ≠ .running → s.inbox = .cycle r :: es →
    step s = .next { s with inbox := es }

/-- Tick: each timer goes down by one unless it is 0, in RUNNING and PAUSED; in QUIT nothing (the spec's decision D24). -/
def Obligations.TickDecrementsEachNonzeroTimer : Prop :=
  ∀ (s : State) (es : List Event), s.inbox = .tick :: es →
    (s.rs ≠ .quit → ∃ t, step s = .next t ∧ t.dt.toNat = s.dt.toNat - 1 ∧ t.st.toNat = s.st.toNat - 1 ∧
      t = { s with inbox := es, dt := t.dt, st := t.st }) ∧
    (s.rs = .quit → step s = .next { s with inbox := es })

/-- n Ticks in a row take n from each timer, floor 0, and nothing else changes (95_test_vectors.md L1-5). -/
def Obligations.TicksCountTheTimersDown : Prop :=
  ∀ (n : Nat) (s : State), s.rs ≠ .quit → s.inbox = List.replicate n .tick →
    ∃ t, runFor n s = .next t ∧ t.dt.toNat = s.dt.toNat - n ∧ t.st.toNat = s.st.toNat - n ∧
      t = { s with inbox := [], dt := t.dt, st := t.st }

/-- SetKeys writes K, but in QUIT (the spec's decision D33). -/
def Obligations.SetKeysWritesTheKeypad : Prop :=
  ∀ (s : State) (k : Keypad) (es : List Event), s.inbox = .setKeys k :: es →
    (s.rs ≠ .quit → step s = .next { s with inbox := es, keys := k }) ∧
    (s.rs = .quit → step s = .next { s with inbox := es })

/-- R252: PauseToggle swaps RUNNING and PAUSED and does nothing else. -/
def Obligations.PauseToggleSwapsRunningAndPaused : Prop :=
  ∀ (s : State) (es : List Event), s.inbox = .pauseToggle :: es →
    (s.rs = .running → step s = .next { s with inbox := es, rs := .paused }) ∧
    (s.rs = .paused → step s = .next { s with inbox := es, rs := .running })

/-- R253: Quit sets RS to QUIT and does nothing else; FR stays as it is. -/
def Obligations.QuitSetsTheRunStateOnly : Prop :=
  ∀ (s : State) (es : List Event), s.inbox = .quit :: es → step s = .next { s with inbox := es, rs := .quit }

/-- R40, R43, R48: after Init(rom) memory is the font, the ROM and zeros, PC is 0x200 and RS is RUNNING. -/
def Obligations.InitLoadsFontAndRom : Prop :=
  ∀ (s : State) (rom : List Byte) (es : List Event), s.inbox = .init rom :: es → rom.length ≤ 3584 →
    ∃ t, step s = .next t ∧
      (∀ k, k < 80 → Memory.read t.mem (Config.fontBase + k) = Config.fontData.getD k 0) ∧
      (∀ j, j < rom.length → Memory.read t.mem (0x200 + j) = rom.getD j 0) ∧
      (∀ a, a < 4096 → ¬ (Config.fontBase ≤ a ∧ a < Config.fontBase + 80) → ¬ (0x200 ≤ a ∧ a < 0x200 + rom.length) →
        Memory.read t.mem a = 0) ∧
      t.pc = 0x200 ∧ t.rs = .running

/-- Init leaves every other unit at zero, false or invalid (the spec's decision D25), keeps the host's later events (log 4), and
refuses an image over ROM_MAX. -/
def Obligations.InitClearsTheRest : Prop :=
  ∀ (s : State) (rom : List Byte) (es : List Event), s.inbox = .init rom :: es →
    (rom.length ≤ 3584 → ∃ t, step s = .next t ∧ (∀ r, t.getV r = 0) ∧ t.i = 0 ∧ t.sp.val = 0 ∧
      (∀ k : Fin 16, t.stack[k.val] = 0) ∧ t.dt = 0 ∧ t.st = 0 ∧ (∀ x y, Display.pixel t.display x y = false) ∧
      (∀ k : RegIdx, t.keys[k.val] = false) ∧ t.fr = FaultRecord.clear ∧ t.inbox = es) ∧
    (3584 < rom.length → step s = .fault .romTooLarge)

/-- A step always answers a next state, but for the Init of an image over ROM_MAX (60_exceptions.md, sections 1 and 9). That a
step with no event waiting has a next state is the model's choice (log 2), and says nothing of progress without a host. -/
def Obligations.StepAnswersNextButForAnOversizedRom : Prop :=
  ∀ s : State, (∃ t, step s = .next t) ∨
    (∃ rom es, s.inbox = .init rom :: es ∧ 3584 < rom.length ∧ step s = .fault .romTooLarge)

/-! ## Display -/

/-- R110: CLS turns every pixel off and changes nothing else. -/
def Obligations.ClsTurnsEveryPixelOff : Prop :=
  Row (OfClass0 0xE0) (fun w => .cls (fieldX w)) ∧
  ∀ (z : BitVec 4) (s : State), ∃ t, exec (.cls z) s = .next t ∧ (∀ x y, Display.pixel t.display x y = false) ∧
    SameRegsBut [] s t ∧ SameMemory s t ∧ t = { s with display := t.display }

/-- DRW with all its rows in memory (N = 0 too): each covered pixel is inverted, every other kept, VF the collision; only the
display and VF change. The sequential drawing loop is this pixelwise rule (the spec's decisions D7, D11, D12, D13). -/
def Obligations.DrwInvertsTheCoveredPixels : Prop :=
  Row (OfClass 0xD) (fun w => .drw (regX w) (regY w) (nibbleIdx (fieldN w))) ∧
  ∀ (x y : RegIdx) (n : Fin 16) (s : State), (n.val = 0 ∨ s.i.toNat + n.val ≤ 0x1000) →
    ∃ t, exec (.drw x y n) s = .next t ∧
      Drawn .wrap s.i.toNat (s.getV x).toNat (s.getV y).toNat n.val s t ∧
      SameRegsBut [vf] s t ∧ SameMemory s t ∧ t = { s with v := t.v, display := t.display }

/-- The same under DRAW_EDGE = CLIP, for the shared operation (the spec's decision D11). -/
def Obligations.ClippedDrawDropsBitsPastTheEdge : Prop :=
  ∀ (x y : RegIdx) (n : Nat) (s : State), n < 16 → (n = 0 ∨ s.i.toNat + n ≤ 0x1000) →
    ∃ t, drawUnder .clip x y n s = .ok t ∧
      Drawn .clip s.i.toNat (s.getV x).toNat (s.getV y).toNat n s t ∧
      SameRegsBut [vf] s t ∧ t = { s with v := t.v, display := t.display }

/-- DRW with a row outside memory is fatal and draws nothing (the spec's decisions D18, D21). -/
def Obligations.DrwBeyondMemoryIsFatal : Prop :=
  ∀ (x y : RegIdx) (n : Fin 16) (s : State), 0 < n.val → 0x1000 < s.i.toNat + n.val →
    ∃ t, exec (.drw x y n) s = .next t ∧ FatalEntry .memOobRead (max s.i.toNat 0x1000) (.drw x y n) s t

/-- Drawing the same sprite twice at one place gives the display back, whatever the sprite and the edge policy
(95_test_vectors.md L1-4). -/
def Obligations.DrawingTwiceRestoresTheDisplay : Prop :=
  ∀ (edge : Config.DrawEdge) (x0 y0 : Nat) (sprite : List Byte) (d : Display),
    (drawSprite edge x0 y0 sprite (drawSprite edge x0 y0 sprite d).1).1 = d

/-! ## Control flow and stack -/

/-- R122: RET pops PC, the slot keeps its value; on an empty stack it is fatal and the Cycle's writes are discarded. -/
def Obligations.RetPopsThePc : Prop :=
  Row (OfClass0 0xEE) (fun w => .ret (fieldX w)) ∧
  ∀ (z : BitVec 4) (s : State),
    (∀ h : 0 < s.sp.val, ∃ t, exec (.ret z) s = .next t ∧ t.pc = s.stack[s.sp.val - 1]'(by omega) ∧
      t.sp.val = s.sp.val - 1 ∧ SameRegsBut [] s t ∧ SameMemory s t ∧ t = { s with pc := t.pc, sp := t.sp }) ∧
    (s.sp.val = 0 → ∃ t, exec (.ret z) s = .next t ∧ FatalStop .stackUnderflow s t)

/-- R124: CALL pushes PC, the return address, and jumps; on a full stack it is fatal and pushes nothing. -/
def Obligations.CallPushesThePc : Prop :=
  Row (OfClass 0x2) (fun w => .call (fieldNNN w)) ∧
  ∀ (nnn : BitVec 12) (s : State),
    (∀ h : s.sp.val < Config.stackCapacity, ∃ t, exec (.call nnn) s = .next t ∧ t.stack[s.sp.val] = s.pc ∧
      (∀ k : Fin 16, k.val ≠ s.sp.val → t.stack[k.val] = s.stack[k.val]) ∧ t.sp.val = s.sp.val + 1 ∧
      t.pc.toNat = nnn.toNat ∧ SameRegsBut [] s t ∧ SameMemory s t ∧
      t = { s with pc := t.pc, sp := t.sp, stack := t.stack }) ∧
    (s.sp.val = Config.stackCapacity → ∃ t, exec (.call nnn) s = .next t ∧ FatalStop .stackOverflow s t)

/-- CALL then RET comes back to the instruction after the CALL, at every depth, whatever the subroutine did to PC
(95_test_vectors.md L1-3). -/
def Obligations.RetAfterCallReturnsBehindTheCall : Prop :=
  ∀ (nnn : BitVec 12) (z : BitVec 4) (p : Word) (s : State), s.sp.val < Config.stackCapacity →
    ∃ t u, exec (.call nnn) s = .next t ∧ exec (.ret z) { t with pc := p } = .next u ∧ u.pc = s.pc ∧ u.sp = s.sp

/-- R123: JP sets PC to the address field and changes nothing else. -/
def Obligations.JpSetsThePc : Prop :=
  Row (OfClass 0x1) (fun w => .jp (fieldNNN w)) ∧
  ∀ (nnn : BitVec 12) (s : State), ∃ t, exec (.jp nnn) s = .next t ∧ t.pc.toNat = nnn.toNat ∧ OnlyPc s t

/-- JP V0: the exact sum with V0, never cut to 12 bits (the spec's decision D32). -/
def Obligations.JpV0AddsV0 : Prop :=
  Row (OfClass 0xB) (fun w => .jpV0 (fieldNNN w)) ∧
  ∀ (nnn : BitVec 12) (s : State), ∃ t, exec (.jpV0 nnn) s = .next t ∧
    t.pc.toNat = nnn.toNat + (s.getV 0).toNat ∧ OnlyPc s t

/-- R125, R126: SE and SNE with a byte skip on equal and on not equal. -/
def Obligations.ByteSkips : Prop :=
  Row (OfClass 0x3) (fun w => .seByte (regX w) (fieldNN w)) ∧
  Row (OfClass 0x4) (fun w => .sneByte (regX w) (fieldNN w)) ∧
  ∀ (x : RegIdx) (nn : Byte) (s : State),
    (∃ t, exec (.seByte x nn) s = .next t ∧ t.pc = (if s.getV x = nn then s.pc + 2 else s.pc) ∧ OnlyPc s t) ∧
    (∃ t, exec (.sneByte x nn) s = .next t ∧ t.pc = (if s.getV x = nn then s.pc else s.pc + 2) ∧ OnlyPc s t)

/-- SE and SNE with two registers, whatever the ignored nibble (the spec's decision D6). -/
def Obligations.RegisterSkips : Prop :=
  Row (OfClassXY 0x5) (fun w => .seReg (regX w) (regY w) (fieldN w)) ∧
  Row (OfClassXY 0x9) (fun w => .sneReg (regX w) (regY w) (fieldN w)) ∧
  ∀ (x y : RegIdx) (n : BitVec 4) (s : State),
    (∃ t, exec (.seReg x y n) s = .next t ∧ t.pc = (if s.getV x = s.getV y then s.pc + 2 else s.pc) ∧ OnlyPc s t) ∧
    (∃ t, exec (.sneReg x y n) s = .next t ∧ t.pc = (if s.getV x = s.getV y then s.pc else s.pc + 2) ∧ OnlyPc s t)

/-- R190, R191: SKP and SKNP test the key numbered by the low nibble of V[X] (that nibble is the spec's decision D14). -/
def Obligations.KeySkips : Prop :=
  Row (OfClassNN 0xE 0x9E) (fun w => .skp (regX w)) ∧ Row (OfClassNN 0xE 0xA1) (fun w => .sknp (regX w)) ∧
  ∀ (x k : RegIdx) (s : State), (s.getV x).toNat % 16 = k.val →
    (∃ t, exec (.skp x) s = .next t ∧ t.pc = (if s.keys[k.val] = true then s.pc + 2 else s.pc) ∧ OnlyPc s t) ∧
    (∃ t, exec (.sknp x) s = .next t ∧ t.pc = (if s.keys[k.val] = true then s.pc else s.pc + 2) ∧ OnlyPc s t)

/-! ## Register load, arithmetic, logic, random -/

/-- R140, R141, R142: 6XNN, 7XNN and 8XY0 write V[X] only; the sum wraps and sets no flag. -/
def Obligations.LoadsAndAddImmediateWriteVx : Prop :=
  Row (OfClass 0x6) (fun w => .ldByte (regX w) (fieldNN w)) ∧
  Row (OfClass 0x7) (fun w => .addByte (regX w) (fieldNN w)) ∧
  Row (OfClassN 0x8 0x0) (fun w => .ldReg (regX w) (regY w)) ∧
  ∀ (x y : RegIdx) (nn : Byte) (s : State),
    (∃ t, exec (.ldByte x nn) s = .next t ∧ t.getV x = nn ∧ OnlyRegs [x] s t) ∧
    (∃ t, exec (.addByte x nn) s = .next t ∧ (t.getV x).toNat = ((s.getV x).toNat + nn.toNat) % 256 ∧
      OnlyRegs [x] s t) ∧
    (∃ t, exec (.ldReg x y) s = .next t ∧ t.getV x = s.getV y ∧ OnlyRegs [x] s t)

/-- R143, R144, R145: OR, AND and XOR write V[X] bit by bit and no flag; with LOGIC_VF_RESET = true, VF is cleared last. -/
def Obligations.LogicWritesVxBitwise : Prop :=
  Row (OfClassN 0x8 0x1) (fun w => .orReg (regX w) (regY w)) ∧
  Row (OfClassN 0x8 0x2) (fun w => .andReg (regX w) (regY w)) ∧
  Row (OfClassN 0x8 0x3) (fun w => .xorReg (regX w) (regY w)) ∧
  ∀ (x y : RegIdx) (s : State),
    (∃ t, exec (.orReg x y) s = .next t ∧ t.getV x = s.getV x ||| s.getV y ∧ OnlyRegs [x] s t) ∧
    (∃ t, exec (.andReg x y) s = .next t ∧ t.getV x = s.getV x &&& s.getV y ∧ OnlyRegs [x] s t) ∧
    (∃ t, exec (.xorReg x y) s = .next t ∧ t.getV x = s.getV x ^^^ s.getV y ∧ OnlyRegs [x] s t) ∧
    (∀ f : Byte → Byte → Byte,
      (logicUnder true f x y s).getV vf = 0 ∧
      (x ≠ vf → (logicUnder true f x y s).getV x = f (s.getV x) (s.getV y)) ∧
      OnlyRegs [x, vf] s (logicUnder true f x y s))

/-- ADD: the sum modulo 256 in V[X], the carry in VF; with X = F the carry is what VF keeps (the spec's decision D7). -/
def Obligations.AddWithCarry : Prop :=
  Row (OfClassN 0x8 0x4) (fun w => .addReg (regX w) (regY w)) ∧
  ∀ (x y : RegIdx) (s : State), ∃ t, exec (.addReg x y) s = .next t ∧
    (x ≠ vf → (t.getV x).toNat = ((s.getV x).toNat + (s.getV y).toNat) % 256) ∧
    (t.getV vf).toNat = (if 256 ≤ (s.getV x).toNat + (s.getV y).toNat then 1 else 0) ∧ OnlyRegs [x, vf] s t

/-- SUB and SUBN: the difference modulo 256 in V[X], not-borrow in VF, 1 on equality; with X = F the flag is what VF keeps
(the spec's decisions D7, D10). -/
def Obligations.SubtractWithNotBorrow : Prop :=
  Row (OfClassN 0x8 0x5) (fun w => .subReg (regX w) (regY w)) ∧
  Row (OfClassN 0x8 0x7) (fun w => .subn (regX w) (regY w)) ∧
  ∀ (x y : RegIdx) (s : State),
    (∃ t, exec (.subReg x y) s = .next t ∧
      (x ≠ vf → (t.getV x).toNat = ((s.getV x).toNat + 256 - (s.getV y).toNat) % 256) ∧
      (t.getV vf).toNat = (if (s.getV y).toNat ≤ (s.getV x).toNat then 1 else 0) ∧ OnlyRegs [x, vf] s t) ∧
    (∃ t, exec (.subn x y) s = .next t ∧
      (x ≠ vf → (t.getV x).toNat = ((s.getV y).toNat + 256 - (s.getV x).toNat) % 256) ∧
      (t.getV vf).toNat = (if (s.getV x).toNat ≤ (s.getV y).toNat then 1 else 0) ∧ OnlyRegs [x, vf] s t)

/-- SHR and SHL: V[X] shifted in place by one, VF the bit shifted out (the spec's decisions D7, D8). -/
def Obligations.ShiftsMoveTheLostBitToVf : Prop :=
  Row (OfClassN 0x8 0x6) (fun w => .shr (regX w) (regY w)) ∧
  Row (OfClassN 0x8 0xE) (fun w => .shl (regX w) (regY w)) ∧
  ∀ (x y : RegIdx) (s : State),
    (∃ t, exec (.shr x y) s = .next t ∧ (x ≠ vf → (t.getV x).toNat = (s.getV x).toNat / 2) ∧
      (t.getV vf).toNat = (s.getV x).toNat % 2 ∧ OnlyRegs [x, vf] s t) ∧
    (∃ t, exec (.shl x y) s = .next t ∧ (x ≠ vf → (t.getV x).toNat = (s.getV x).toNat * 2 % 256) ∧
      (t.getV vf).toNat = (s.getV x).toNat / 128 ∧ OnlyRegs [x, vf] s t)

/-- The same with SHIFT_SOURCE = VY: V[Y] is shifted into V[X] (the spec's decision D8). -/
def Obligations.ShiftsOfVyWriteVx : Prop :=
  ∀ (x y : RegIdx) (s : State),
    ((x ≠ vf → ((shrUnder .vy x y s).getV x).toNat = (s.getV y).toNat / 2) ∧
      ((shrUnder .vy x y s).getV vf).toNat = (s.getV y).toNat % 2 ∧ OnlyRegs [x, vf] s (shrUnder .vy x y s)) ∧
    ((x ≠ vf → ((shlUnder .vy x y s).getV x).toNat = (s.getV y).toNat * 2 % 256) ∧
      ((shlUnder .vy x y s).getV vf).toNat = (s.getV y).toNat / 128 ∧ OnlyRegs [x, vf] s (shlUnder .vy x y s))

/-- RND: the Cycle's random byte masked by NN, for every byte (the spec's decision D26; log 3). -/
def Obligations.RndMasksTheRandomByte : Prop :=
  Row (OfClass 0xC) (fun w => .rnd (regX w) (fieldNN w)) ∧
  ∀ (x : RegIdx) (nn r : Byte) (s : State),
    (∃ t, exec (.rnd x nn) { s with rnd := some r } = .next t ∧ t.getV x = r &&& nn ∧
      OnlyRegs [x] { s with rnd := some r } t) ∧
    (∃ t, exec (.rnd x nn) s = .next t ∧ t.getV x = s.randomByte &&& nn ∧ OnlyRegs [x] s t)

/-- Only RND depends on the random byte: any other instruction does the same whatever its source holds (the spec's decision
D26). -/
def Obligations.OnlyRndReadsTheRandomByte : Prop :=
  ∀ (i : Instr) (s t : State) (r : Option Byte) (n : Nat), (∀ x nn, i ≠ .rnd x nn) → exec i s = .next t →
    exec i { s with rnd := r, draws := n } = .next { t with rnd := r, draws := n }

/-! ## Index and memory -/

/-- R170: LD I sets I to the address field. -/
def Obligations.LdISetsTheIndex : Prop :=
  Row (OfClass 0xA) (fun w => .ldI (fieldNNN w)) ∧
  ∀ (nnn : BitVec 12) (s : State), ∃ t, exec (.ldI nnn) s = .next t ∧ t.i.toNat = nnn.toNat ∧ OnlyIndex s t

/-- ADD I wraps at 16 bits and sets no flag; LD F points at the glyph of the low nibble (the spec's decisions D14, D17). -/
def Obligations.IndexArithmetic : Prop :=
  Row (OfClassNN 0xF 0x1E) (fun w => .addI (regX w)) ∧ Row (OfClassNN 0xF 0x29) (fun w => .ldF (regX w)) ∧
  ∀ (x : RegIdx) (s : State),
    (∃ t, exec (.addI x) s = .next t ∧ t.i.toNat = (s.i.toNat + (s.getV x).toNat) % 65536 ∧ OnlyIndex s t) ∧
    (∃ t, exec (.ldF x) s = .next t ∧ t.i.toNat = Config.fontBase + 5 * ((s.getV x).toNat % 16) ∧ OnlyIndex s t)

/-- LD B stores the three decimal digits of V[X] at I, I+1, I+2 and nothing else; a byte outside memory or a font byte among
them is fatal and nothing is stored (the spec's decisions D18, D19). -/
def Obligations.LdBStoresTheDecimalDigits : Prop :=
  Row (OfClassNN 0xF 0x33) (fun w => .ldB (regX w)) ∧
  ∀ (x : RegIdx) (s : State), Memory.wf s.mem = true →
    (Storable s.i.toNat 3 → ∃ t, exec (.ldB x) s = .next t ∧
      (Memory.read t.mem s.i.toNat).toNat = (s.getV x).toNat / 100 ∧
      (Memory.read t.mem (s.i.toNat + 1)).toNat = (s.getV x).toNat / 10 % 10 ∧
      (Memory.read t.mem (s.i.toNat + 2)).toNat = (s.getV x).toNat % 10 ∧ OnlyMemory s.i.toNat 3 s t) ∧
    (0xFFF < s.i.toNat + 2 → ∃ t, exec (.ldB x) s = .next t ∧
      FatalStop .memOobWrite s t ∧ t.fr.addr.toNat = max s.i.toNat 0x1000) ∧
    ((∃ k, k < 3 ∧ isFontAddr (s.i.toNat + k) = true) → ∃ t, exec (.ldB x) s = .next t ∧
      FatalStop .fontWrite s t)

/-- LD [I] stores V0..VX from I on and nothing else, I unchanged; a byte outside memory or a font byte among them is fatal and
nothing is stored (the spec's decisions D16, D18, D19). -/
def Obligations.StoreWritesTheRegisters : Prop :=
  Row (OfClassNN 0xF 0x55) (fun w => .store (regX w)) ∧
  ∀ (x : RegIdx) (s : State), Memory.wf s.mem = true →
    (Storable s.i.toNat (x.val + 1) → ∃ t, exec (.store x) s = .next t ∧
      (∀ r : RegIdx, r ≤ x → Memory.read t.mem (s.i.toNat + r.val) = s.getV r) ∧
      OnlyMemory s.i.toNat (x.val + 1) s t) ∧
    (0xFFF < s.i.toNat + x.val → ∃ t, exec (.store x) s = .next t ∧
      FatalEntry .memOobWrite (max s.i.toNat 0x1000) (.store x) s t) ∧
    ((∃ k, k ≤ x.val ∧ isFontAddr (s.i.toNat + k) = true) → ∃ t, exec (.store x) s = .next t ∧
      FatalEntry .fontWrite (max s.i.toNat Config.fontBase) (.store x) s t)

/-- LD Vx, [I] loads V0..VX from I on and nothing else, I unchanged; a byte outside memory is fatal and nothing is loaded (the
spec's decisions D16, D18). -/
def Obligations.LoadReadsTheRegisters : Prop :=
  Row (OfClassNN 0xF 0x65) (fun w => .load (regX w)) ∧
  ∀ (x : RegIdx) (s : State),
    (s.i.toNat + x.val ≤ 0xFFF → ∃ t, exec (.load x) s = .next t ∧
      (∀ r : RegIdx, r ≤ x → t.getV r = Memory.read s.mem (s.i.toNat + r.val)) ∧
      (∀ r : RegIdx, x < r → t.getV r = s.getV r) ∧ t.i = s.i ∧ t.pc = s.pc ∧ SameMemory s t ∧ SameUnits s t) ∧
    (0xFFF < s.i.toNat + x.val → ∃ t, exec (.load x) s = .next t ∧
      FatalEntry .memOobRead (max s.i.toNat 0x1000) (.load x) s t)

/-- LOADSTORE_I_INCREMENT: what I is after FX55 and FX65 that do not fault, for each of its values (the spec's decision
D16). -/
def Obligations.IncrementPolicyMovesTheIndex : Prop :=
  ∀ (p : Config.FontWritePolicy) (inc : Config.LoadStoreIncrement) (x : RegIdx) (s t : State),
    (storeRegsUnder p inc x s = .ok t ∨ loadRegsUnder inc x s = .ok t) →
    t.i.toNat = (match inc with
      | .none => s.i.toNat
      | .x => (s.i.toNat + x.val) % 65536
      | .xPlusOne => (s.i.toNat + x.val + 1) % 65536)

/-- FONT_WRITE_POLICY: the three things a write to a font byte can do, and a byte outside memory faults whatever the policy
(the spec's decisions D18, D19). -/
def Obligations.FontWritePolicyDecides : Prop :=
  ∀ (m : Memory) (a : Nat) (v : Byte), Memory.wf m = true →
    (0xFFF < a → ∀ p, memWriteUnder p m a v = .error ⟨.memOobWrite, a⟩) ∧
    (isFontAddr a = true →
      memWriteUnder .fatal m a v = .error ⟨.fontWrite, a⟩ ∧ memWriteUnder .ignore m a v = .ok m ∧
      ∃ m', memWriteUnder .allow m a v = .ok m' ∧ Memory.read m' a = v)

/-- Code is data: the word at two bytes that LD [I] has just stored is fetched as they were stored, high byte first (the spec's
decision D22). -/
def Obligations.FetchSeesTheStoredBytes : Prop :=
  ∀ (x r q : RegIdx) (s t : State), Memory.wf s.mem = true → Storable s.i.toNat (x.val + 1) → q ≤ x →
    q.val = r.val + 1 → exec (.store x) s = .next t →
    fetch16 t.mem (s.i.toNat + r.val) = .ok (s.getV r ++ s.getV q)

/-! ## Keypad and timers -/

/-- R192, R194, R195: the timer instructions move one byte; the sound is on exactly while ST is not 0. -/
def Obligations.TimerMoves : Prop :=
  Row (OfClassNN 0xF 0x07) (fun w => .ldVxDt (regX w)) ∧ Row (OfClassNN 0xF 0x15) (fun w => .ldDtVx (regX w)) ∧
  Row (OfClassNN 0xF 0x18) (fun w => .ldStVx (regX w)) ∧
  ∀ (x : RegIdx) (s : State),
    (∃ t, exec (.ldVxDt x) s = .next t ∧ t.getV x = s.dt ∧ OnlyRegs [x] s t) ∧
    (∃ t, exec (.ldDtVx x) s = .next t ∧ t.dt = s.getV x ∧ SameRegsBut [] s t ∧ SameMemory s t ∧
      t = { s with dt := t.dt }) ∧
    (∃ t, exec (.ldStVx x) s = .next t ∧ t.st = s.getV x ∧ (t.soundOn = true ↔ s.getV x ≠ 0) ∧ SameRegsBut [] s t ∧
      SameMemory s t ∧ t = { s with st := t.st })

/-- FX0A: the lowest pressed key goes to V[X]; with none pressed PC goes back to this instruction and nothing else changes (the
spec's decision D15). -/
def Obligations.WaitForKeyTakesTheLowest : Prop :=
  Row (OfClassNN 0xF 0x0A) (fun w => .ldVxK (regX w)) ∧
  ∀ (x : RegIdx) (s : State),
    (∀ k : RegIdx, s.keys[k.val] = true → (∀ j : RegIdx, j < k → s.keys[j.val] = false) →
      ∃ t, exec (.ldVxK x) s = .next t ∧ (t.getV x).toNat = k.val ∧ OnlyRegs [x] s t) ∧
    ((∀ j : RegIdx, s.keys[j.val] = false) →
      ∃ t, exec (.ldVxK x) s = .next t ∧ t.pc = s.pc - 2 ∧ OnlyPc s t)

/-! ## Whole-machine rules -/

/-- Every instruction ends in a next state, and either leaves RS and FR alone or is a precise fatal error: no partial effect,
PC at pc0, FR with the whole word (the spec's decision D21). -/
def Obligations.FatalErrorsArePrecise : Prop :=
  ∀ (i : Instr) (s : State), ∃ t, exec i s = .next t ∧
    ((t.rs = s.rs ∧ t.fr = s.fr) ∨ ∃ k a, FatalEntry k a i s t)

/-- Which instructions can raise which fatal error, and the address FR records (60_exceptions.md, section 1, the table; the
spec's decision D21). -/
def Obligations.EachFatalErrorHasItsInstructions : Prop :=
  ∀ (i : Instr) (s t : State), s.Safe → exec i s = .next t → ¬ t.Safe →
    (t.fr.kind = .stackOverflow ∧ t.fr.addr = 0 ∧ (∃ nnn, i = .call nnn) ∧ s.sp.val = Config.stackCapacity) ∨
    (t.fr.kind = .stackUnderflow ∧ t.fr.addr = 0 ∧ (∃ z, i = .ret z) ∧ s.sp.val = 0) ∨
    (t.fr.kind = .memOobRead ∧ t.fr.addr.toNat = max s.i.toNat 0x1000 ∧
      ((∃ x y n, i = .drw x y n) ∨ ∃ x, i = .load x)) ∨
    (((t.fr.kind = .memOobWrite ∧ t.fr.addr.toNat = max s.i.toNat 0x1000) ∨
        (t.fr.kind = .fontWrite ∧ t.fr.addr.toNat = max s.i.toNat Config.fontBase)) ∧
      ((∃ x, i = .ldB x) ∨ ∃ x, i = .store x))

/-- Each unit is changed only by its own instructions (10_state.md, sections 3 to 6). -/
def Obligations.EachUnitHasItsWriters : Prop :=
  ∀ (i : Instr) (s t : State), exec i s = .next t →
    t.keys = s.keys ∧
    (t.display ≠ s.display → (∃ z, i = .cls z) ∨ ∃ x y n, i = .drw x y n) ∧
    (t.dt ≠ s.dt → ∃ x, i = .ldDtVx x) ∧
    (t.st ≠ s.st → ∃ x, i = .ldStVx x) ∧
    (t.stack ≠ s.stack → ∃ nnn, i = .call nnn) ∧
    (t.sp ≠ s.sp → (∃ nnn, i = .call nnn) ∨ ∃ z, i = .ret z) ∧
    (t.mem ≠ s.mem → (∃ x, i = .ldB x) ∨ ∃ x, i = .store x) ∧
    (t.i ≠ s.i → (∃ nnn, i = .ldI nnn) ∨ (∃ x, i = .addI x) ∨ ∃ x, i = .ldF x)

/-- VF is changed only by the instructions that write it as a flag and by those that name it as their destination
(10_state.md, section 2). -/
def Obligations.VfHasItsWriters : Prop :=
  ∀ (i : Instr) (s t : State), exec i s = .next t → t.getV vf ≠ s.getV vf →
    (∃ x y, i = .addReg x y ∨ i = .subReg x y ∨ i = .shr x y ∨ i = .subn x y ∨ i = .shl x y) ∨
    (∃ x y n, i = .drw x y n) ∨
    (∃ nn, i = .ldByte vf nn ∨ i = .addByte vf nn ∨ i = .rnd vf nn) ∨
    (∃ y, i = .ldReg vf y ∨ i = .orReg vf y ∨ i = .andReg vf y ∨ i = .xorReg vf y) ∨
    i = .ldVxDt vf ∨ i = .ldVxK vf ∨ i = .load vf

/-- What each event can do to RS: only the listed transitions, and a fatal error is the core's only one of its own. That Init is
an event, which makes a fresh block, and that an empty inbox is a Cycle, are the model's choices (log 4, log 2). -/
def Obligations.RunStateTransitions : Prop :=
  ∀ s t : State, step s = .next t →
    match s.inbox with
    | .init _ :: _ => t.rs = .running
    | .pauseToggle :: _ =>
      (s.rs = .running → t.rs = .paused) ∧ (s.rs = .paused → t.rs = .running) ∧ (s.rs = .quit → t.rs = .quit)
    | .quit :: _ => t.rs = .quit
    | .tick :: _ => t.rs = s.rs
    | .setKeys _ :: _ => t.rs = s.rs
    | .cycle _ :: _ => t.rs = s.rs ∨ (s.rs = .running ∧ t.rs = .quit ∧ t.fr.valid = true)
    | [] => t.rs = s.rs ∨ (s.rs = .running ∧ t.rs = .quit ∧ t.fr.valid = true)

/-- QUIT is final: however many events other than Init follow, they change nothing but the host's list (the spec's decisions
D24, D33). -/
def Obligations.QuitIsFinal : Prop :=
  ∀ (n : Nat) (s : State), s.rs = .quit → (∀ rom, Event.init rom ∉ s.inbox.take n) →
    runFor n s = .next { s with inbox := s.inbox.drop n }

/-- The outputs: sound_on is ST != 0, pixel (x, y) is bit y * 64 + x of the display port (the spec's decision D34), and RS and
FR.kind have the spec's codes (its decisions D1 and D21). -/
def Obligations.OutputsShowTheState : Prop :=
  ∀ (s : State) (x : Fin 64) (y : Fin 32),
    (s.outputs.soundOn = true ↔ s.st.toNat ≠ 0) ∧
    s.outputs.display[y.val * 64 + x.val]'(by omega) = Display.pixel s.display x y ∧
    s.outputs.dt = s.dt ∧ s.outputs.st = s.st ∧ s.outputs.fault = s.fr ∧
    s.outputs.runState.toNat = (match s.rs with | .running => 0 | .paused => 1 | .quit => 2) ∧
    s.outputs.fault.kind.code.toNat = (match s.fr.kind with
      | .none => 0
      | .stackOverflow => 1
      | .stackUnderflow => 2
      | .memOobFetch => 3
      | .memOobRead => 4
      | .memOobWrite => 5
      | .fontWrite => 6
      | .unknownOpcode => 7)

/-- The invariant holds of the reset state. -/
def Obligations.ResetMeetsTheInvariant : Prop := State.reset.Inv

/-- Every step keeps the invariant: memory in its canonical form, the font bytes as constructed, FR and RS fitting together. -/
def Obligations.StepKeepsTheInvariant : Prop :=
  ∀ s t : State, s.Inv → step s = .next t → t.Inv
end

