-- ==== Sys2Proof/Laws/Decode.lean ====
section
/-! SUPPORT. The fields of an assembled word are the parts it was assembled from, and a word is assembled from its fields;
so decoding and encoding need no bit arithmetic of their own. -/

set_option Elab.async false

namespace Sys2Proof

@[simp] theorem fieldC_assemble (c x y n : BitVec 4) : fieldC (assemble c x y n) = c := by
  apply BitVec.eq_of_getLsbD_eq
  intro k hk
  simp only [fieldC, assemble, BitVec.getLsbD_extract, BitVec.getLsbD_append]
  interval_cases k <;> simp

@[simp] theorem fieldX_assemble (c x y n : BitVec 4) : fieldX (assemble c x y n) = x := by
  apply BitVec.eq_of_getLsbD_eq
  intro k hk
  simp only [fieldX, assemble, BitVec.getLsbD_extract, BitVec.getLsbD_append]
  interval_cases k <;> simp

@[simp] theorem fieldY_assemble (c x y n : BitVec 4) : fieldY (assemble c x y n) = y := by
  apply BitVec.eq_of_getLsbD_eq
  intro k hk
  simp only [fieldY, assemble, BitVec.getLsbD_extract, BitVec.getLsbD_append]
  interval_cases k <;> simp

@[simp] theorem fieldN_assemble (c x y n : BitVec 4) : fieldN (assemble c x y n) = n := by
  apply BitVec.eq_of_getLsbD_eq
  intro k hk
  simp only [fieldN, assemble, BitVec.getLsbD_extract, BitVec.getLsbD_append]
  interval_cases k <;> simp

@[simp] theorem fieldC_assembleXNN (c x : BitVec 4) (nn : Byte) : fieldC (assembleXNN c x nn) = c := by
  apply BitVec.eq_of_getLsbD_eq
  intro k hk
  simp only [fieldC, assembleXNN, BitVec.getLsbD_extract, BitVec.getLsbD_append]
  interval_cases k <;> simp

@[simp] theorem fieldX_assembleXNN (c x : BitVec 4) (nn : Byte) : fieldX (assembleXNN c x nn) = x := by
  apply BitVec.eq_of_getLsbD_eq
  intro k hk
  simp only [fieldX, assembleXNN, BitVec.getLsbD_extract, BitVec.getLsbD_append]
  interval_cases k <;> simp

@[simp] theorem fieldNN_assembleXNN (c x : BitVec 4) (nn : Byte) : fieldNN (assembleXNN c x nn) = nn := by
  apply BitVec.eq_of_getLsbD_eq
  intro k hk
  simp only [fieldNN, assembleXNN, BitVec.getLsbD_extract, BitVec.getLsbD_append]
  interval_cases k <;> simp

@[simp] theorem fieldC_assembleNNN (c : BitVec 4) (nnn : BitVec 12) : fieldC (assembleNNN c nnn) = c := by
  apply BitVec.eq_of_getLsbD_eq
  intro k hk
  simp only [fieldC, assembleNNN, BitVec.getLsbD_extract, BitVec.getLsbD_append]
  interval_cases k <;> simp

@[simp] theorem fieldNNN_assembleNNN (c : BitVec 4) (nnn : BitVec 12) : fieldNNN (assembleNNN c nnn) = nnn := by
  apply BitVec.eq_of_getLsbD_eq
  intro k hk
  simp only [fieldNNN, assembleNNN, BitVec.getLsbD_extract, BitVec.getLsbD_append]
  interval_cases k <;> simp

/-- A word is its four nibbles. -/
theorem assemble_fields (w : Word) : assemble (fieldC w) (fieldX w) (fieldY w) (fieldN w) = w := by
  apply BitVec.eq_of_getLsbD_eq
  intro k hk
  simp only [assemble, fieldC, fieldX, fieldY, fieldN, BitVec.getLsbD_append, BitVec.getLsbD_extract]
  interval_cases k <;> simp

/-- A word is its class, its X and its NN. -/
theorem assembleXNN_fields (w : Word) : assembleXNN (fieldC w) (fieldX w) (fieldNN w) = w := by
  apply BitVec.eq_of_getLsbD_eq
  intro k hk
  simp only [assembleXNN, fieldC, fieldX, fieldNN, BitVec.getLsbD_append, BitVec.getLsbD_extract]
  interval_cases k <;> simp

/-- A word is its class and its NNN. -/
theorem assembleNNN_fields (w : Word) : assembleNNN (fieldC w) (fieldNNN w) = w := by
  apply BitVec.eq_of_getLsbD_eq
  intro k hk
  simp only [assembleNNN, fieldC, fieldNNN, BitVec.getLsbD_append, BitVec.getLsbD_extract]
  interval_cases k <;> simp

@[simp] theorem nibbleIdx_ofFin (x : Fin 16) : nibbleIdx (BitVec.ofFin x) = x := rfl

@[simp] theorem ofFin_nibbleIdx (n : BitVec 4) : BitVec.ofFin (nibbleIdx n) = n := rfl

@[simp] theorem regX_assemble (c x y n : BitVec 4) : regX (assemble c x y n) = nibbleIdx x := by simp [regX]

@[simp] theorem regY_assemble (c x y n : BitVec 4) : regY (assemble c x y n) = nibbleIdx y := by simp [regY]

@[simp] theorem regX_assembleXNN (c x : BitVec 4) (nn : Byte) : regX (assembleXNN c x nn) = nibbleIdx x := by simp [regX]

@[simp] theorem ofFin_regX (w : Word) : BitVec.ofFin (regX w) = fieldX w := rfl

@[simp] theorem ofFin_regY (w : Word) : BitVec.ofFin (regY w) = fieldY w := rfl

/-- The bytes of a word, put together again. -/
@[simp] theorem wordOfBytes_bytesOfWord (w : Word) :
    wordOfBytes (w.extractLsb 15 8 : Byte) (w.extractLsb 7 0 : Byte) = w := by
  apply BitVec.eq_of_getLsbD_eq
  intro k hk
  simp only [wordOfBytes, BitVec.getLsbD_append, BitVec.getLsbD_extract]
  interval_cases k <;> simp

/-- The decoder on the bytes of a word is the decoder on the word. -/
theorem decodeBytes_bytesOfWord (w : Word) (rest : List Byte) :
    decodeBytes (bytesOfWord w ++ rest) = (match decode w with | .ok i => .ok (i, rest) | .error e => .error e) := by
  cases h : decode w <;> simp [bytesOfWord, decodeBytes, h]

end Sys2Proof
end

