-- ==== Sys2Proof/Laws/State.lean ====
section
/-! SUPPORT. One lemma per field per update of State, each true by rfl, so that no proof unfolds a record update; then the
register file's read after write. -/

set_option Elab.async false

namespace Sys2Proof.Machine

variable (s : State)

/-! ### setV -/

@[simp] theorem State.setV_mem (r : RegIdx) (b : Byte) : (s.setV r b).mem = s.mem := rfl
@[simp] theorem State.setV_v (r : RegIdx) (b : Byte) : (s.setV r b).v = s.v.set r.val b := rfl
@[simp] theorem State.setV_i (r : RegIdx) (b : Byte) : (s.setV r b).i = s.i := rfl
@[simp] theorem State.setV_pc (r : RegIdx) (b : Byte) : (s.setV r b).pc = s.pc := rfl
@[simp] theorem State.setV_stack (r : RegIdx) (b : Byte) : (s.setV r b).stack = s.stack := rfl
@[simp] theorem State.setV_sp (r : RegIdx) (b : Byte) : (s.setV r b).sp = s.sp := rfl
@[simp] theorem State.setV_dt (r : RegIdx) (b : Byte) : (s.setV r b).dt = s.dt := rfl
@[simp] theorem State.setV_st (r : RegIdx) (b : Byte) : (s.setV r b).st = s.st := rfl
@[simp] theorem State.setV_display (r : RegIdx) (b : Byte) : (s.setV r b).display = s.display := rfl
@[simp] theorem State.setV_keys (r : RegIdx) (b : Byte) : (s.setV r b).keys = s.keys := rfl
@[simp] theorem State.setV_rs (r : RegIdx) (b : Byte) : (s.setV r b).rs = s.rs := rfl
@[simp] theorem State.setV_fr (r : RegIdx) (b : Byte) : (s.setV r b).fr = s.fr := rfl
@[simp] theorem State.setV_inbox (r : RegIdx) (b : Byte) : (s.setV r b).inbox = s.inbox := rfl
@[simp] theorem State.setV_rnd (r : RegIdx) (b : Byte) : (s.setV r b).rnd = s.rnd := rfl
@[simp] theorem State.setV_draws (r : RegIdx) (b : Byte) : (s.setV r b).draws = s.draws := rfl
@[simp] theorem State.setV_randomByte (r : RegIdx) (b : Byte) : (s.setV r b).randomByte = s.randomByte := rfl
@[simp] theorem State.setV_pc0 (r : RegIdx) (b : Byte) : (s.setV r b).pc0 = s.pc0 := rfl

/-! ### setI -/

@[simp] theorem State.setI_mem (w : Word) : (s.setI w).mem = s.mem := rfl
@[simp] theorem State.setI_v (w : Word) : (s.setI w).v = s.v := rfl
@[simp] theorem State.setI_i (w : Word) : (s.setI w).i = w := rfl
@[simp] theorem State.setI_pc (w : Word) : (s.setI w).pc = s.pc := rfl
@[simp] theorem State.setI_stack (w : Word) : (s.setI w).stack = s.stack := rfl
@[simp] theorem State.setI_sp (w : Word) : (s.setI w).sp = s.sp := rfl
@[simp] theorem State.setI_dt (w : Word) : (s.setI w).dt = s.dt := rfl
@[simp] theorem State.setI_st (w : Word) : (s.setI w).st = s.st := rfl
@[simp] theorem State.setI_display (w : Word) : (s.setI w).display = s.display := rfl
@[simp] theorem State.setI_keys (w : Word) : (s.setI w).keys = s.keys := rfl
@[simp] theorem State.setI_rs (w : Word) : (s.setI w).rs = s.rs := rfl
@[simp] theorem State.setI_fr (w : Word) : (s.setI w).fr = s.fr := rfl
@[simp] theorem State.setI_inbox (w : Word) : (s.setI w).inbox = s.inbox := rfl
@[simp] theorem State.setI_rnd (w : Word) : (s.setI w).rnd = s.rnd := rfl
@[simp] theorem State.setI_draws (w : Word) : (s.setI w).draws = s.draws := rfl
@[simp] theorem State.setI_getV (w : Word) (q : RegIdx) : (s.setI w).getV q = s.getV q := rfl
@[simp] theorem State.setI_randomByte (w : Word) : (s.setI w).randomByte = s.randomByte := rfl
@[simp] theorem State.setI_pc0 (w : Word) : (s.setI w).pc0 = s.pc0 := rfl

/-! ### setPc -/

@[simp] theorem State.setPc_mem (w : Word) : (s.setPc w).mem = s.mem := rfl
@[simp] theorem State.setPc_v (w : Word) : (s.setPc w).v = s.v := rfl
@[simp] theorem State.setPc_i (w : Word) : (s.setPc w).i = s.i := rfl
@[simp] theorem State.setPc_pc (w : Word) : (s.setPc w).pc = w := rfl
@[simp] theorem State.setPc_stack (w : Word) : (s.setPc w).stack = s.stack := rfl
@[simp] theorem State.setPc_sp (w : Word) : (s.setPc w).sp = s.sp := rfl
@[simp] theorem State.setPc_dt (w : Word) : (s.setPc w).dt = s.dt := rfl
@[simp] theorem State.setPc_st (w : Word) : (s.setPc w).st = s.st := rfl
@[simp] theorem State.setPc_display (w : Word) : (s.setPc w).display = s.display := rfl
@[simp] theorem State.setPc_keys (w : Word) : (s.setPc w).keys = s.keys := rfl
@[simp] theorem State.setPc_rs (w : Word) : (s.setPc w).rs = s.rs := rfl
@[simp] theorem State.setPc_fr (w : Word) : (s.setPc w).fr = s.fr := rfl
@[simp] theorem State.setPc_inbox (w : Word) : (s.setPc w).inbox = s.inbox := rfl
@[simp] theorem State.setPc_rnd (w : Word) : (s.setPc w).rnd = s.rnd := rfl
@[simp] theorem State.setPc_draws (w : Word) : (s.setPc w).draws = s.draws := rfl
@[simp] theorem State.setPc_getV (w : Word) (q : RegIdx) : (s.setPc w).getV q = s.getV q := rfl
@[simp] theorem State.setPc_randomByte (w : Word) : (s.setPc w).randomByte = s.randomByte := rfl

/-! ### setDt -/

@[simp] theorem State.setDt_mem (b : Byte) : (s.setDt b).mem = s.mem := rfl
@[simp] theorem State.setDt_v (b : Byte) : (s.setDt b).v = s.v := rfl
@[simp] theorem State.setDt_i (b : Byte) : (s.setDt b).i = s.i := rfl
@[simp] theorem State.setDt_pc (b : Byte) : (s.setDt b).pc = s.pc := rfl
@[simp] theorem State.setDt_stack (b : Byte) : (s.setDt b).stack = s.stack := rfl
@[simp] theorem State.setDt_sp (b : Byte) : (s.setDt b).sp = s.sp := rfl
@[simp] theorem State.setDt_dt (b : Byte) : (s.setDt b).dt = b := rfl
@[simp] theorem State.setDt_st (b : Byte) : (s.setDt b).st = s.st := rfl
@[simp] theorem State.setDt_display (b : Byte) : (s.setDt b).display = s.display := rfl
@[simp] theorem State.setDt_keys (b : Byte) : (s.setDt b).keys = s.keys := rfl
@[simp] theorem State.setDt_rs (b : Byte) : (s.setDt b).rs = s.rs := rfl
@[simp] theorem State.setDt_fr (b : Byte) : (s.setDt b).fr = s.fr := rfl
@[simp] theorem State.setDt_inbox (b : Byte) : (s.setDt b).inbox = s.inbox := rfl
@[simp] theorem State.setDt_rnd (b : Byte) : (s.setDt b).rnd = s.rnd := rfl
@[simp] theorem State.setDt_draws (b : Byte) : (s.setDt b).draws = s.draws := rfl
@[simp] theorem State.setDt_getV (b : Byte) (q : RegIdx) : (s.setDt b).getV q = s.getV q := rfl
@[simp] theorem State.setDt_randomByte (b : Byte) : (s.setDt b).randomByte = s.randomByte := rfl
@[simp] theorem State.setDt_pc0 (b : Byte) : (s.setDt b).pc0 = s.pc0 := rfl

/-! ### setSt -/

@[simp] theorem State.setSt_mem (b : Byte) : (s.setSt b).mem = s.mem := rfl
@[simp] theorem State.setSt_v (b : Byte) : (s.setSt b).v = s.v := rfl
@[simp] theorem State.setSt_i (b : Byte) : (s.setSt b).i = s.i := rfl
@[simp] theorem State.setSt_pc (b : Byte) : (s.setSt b).pc = s.pc := rfl
@[simp] theorem State.setSt_stack (b : Byte) : (s.setSt b).stack = s.stack := rfl
@[simp] theorem State.setSt_sp (b : Byte) : (s.setSt b).sp = s.sp := rfl
@[simp] theorem State.setSt_dt (b : Byte) : (s.setSt b).dt = s.dt := rfl
@[simp] theorem State.setSt_st (b : Byte) : (s.setSt b).st = b := rfl
@[simp] theorem State.setSt_display (b : Byte) : (s.setSt b).display = s.display := rfl
@[simp] theorem State.setSt_keys (b : Byte) : (s.setSt b).keys = s.keys := rfl
@[simp] theorem State.setSt_rs (b : Byte) : (s.setSt b).rs = s.rs := rfl
@[simp] theorem State.setSt_fr (b : Byte) : (s.setSt b).fr = s.fr := rfl
@[simp] theorem State.setSt_inbox (b : Byte) : (s.setSt b).inbox = s.inbox := rfl
@[simp] theorem State.setSt_rnd (b : Byte) : (s.setSt b).rnd = s.rnd := rfl
@[simp] theorem State.setSt_draws (b : Byte) : (s.setSt b).draws = s.draws := rfl
@[simp] theorem State.setSt_getV (b : Byte) (q : RegIdx) : (s.setSt b).getV q = s.getV q := rfl
@[simp] theorem State.setSt_randomByte (b : Byte) : (s.setSt b).randomByte = s.randomByte := rfl
@[simp] theorem State.setSt_pc0 (b : Byte) : (s.setSt b).pc0 = s.pc0 := rfl

/-! ### setMem -/

@[simp] theorem State.setMem_mem (m : Memory) : (s.setMem m).mem = m := rfl
@[simp] theorem State.setMem_v (m : Memory) : (s.setMem m).v = s.v := rfl
@[simp] theorem State.setMem_i (m : Memory) : (s.setMem m).i = s.i := rfl
@[simp] theorem State.setMem_pc (m : Memory) : (s.setMem m).pc = s.pc := rfl
@[simp] theorem State.setMem_stack (m : Memory) : (s.setMem m).stack = s.stack := rfl
@[simp] theorem State.setMem_sp (m : Memory) : (s.setMem m).sp = s.sp := rfl
@[simp] theorem State.setMem_dt (m : Memory) : (s.setMem m).dt = s.dt := rfl
@[simp] theorem State.setMem_st (m : Memory) : (s.setMem m).st = s.st := rfl
@[simp] theorem State.setMem_display (m : Memory) : (s.setMem m).display = s.display := rfl
@[simp] theorem State.setMem_keys (m : Memory) : (s.setMem m).keys = s.keys := rfl
@[simp] theorem State.setMem_rs (m : Memory) : (s.setMem m).rs = s.rs := rfl
@[simp] theorem State.setMem_fr (m : Memory) : (s.setMem m).fr = s.fr := rfl
@[simp] theorem State.setMem_inbox (m : Memory) : (s.setMem m).inbox = s.inbox := rfl
@[simp] theorem State.setMem_rnd (m : Memory) : (s.setMem m).rnd = s.rnd := rfl
@[simp] theorem State.setMem_draws (m : Memory) : (s.setMem m).draws = s.draws := rfl
@[simp] theorem State.setMem_getV (m : Memory) (q : RegIdx) : (s.setMem m).getV q = s.getV q := rfl
@[simp] theorem State.setMem_randomByte (m : Memory) : (s.setMem m).randomByte = s.randomByte := rfl
@[simp] theorem State.setMem_pc0 (m : Memory) : (s.setMem m).pc0 = s.pc0 := rfl

/-! ### setDisplay -/

@[simp] theorem State.setDisplay_mem (d : Display) : (s.setDisplay d).mem = s.mem := rfl
@[simp] theorem State.setDisplay_v (d : Display) : (s.setDisplay d).v = s.v := rfl
@[simp] theorem State.setDisplay_i (d : Display) : (s.setDisplay d).i = s.i := rfl
@[simp] theorem State.setDisplay_pc (d : Display) : (s.setDisplay d).pc = s.pc := rfl
@[simp] theorem State.setDisplay_stack (d : Display) : (s.setDisplay d).stack = s.stack := rfl
@[simp] theorem State.setDisplay_sp (d : Display) : (s.setDisplay d).sp = s.sp := rfl
@[simp] theorem State.setDisplay_dt (d : Display) : (s.setDisplay d).dt = s.dt := rfl
@[simp] theorem State.setDisplay_st (d : Display) : (s.setDisplay d).st = s.st := rfl
@[simp] theorem State.setDisplay_display (d : Display) : (s.setDisplay d).display = d := rfl
@[simp] theorem State.setDisplay_keys (d : Display) : (s.setDisplay d).keys = s.keys := rfl
@[simp] theorem State.setDisplay_rs (d : Display) : (s.setDisplay d).rs = s.rs := rfl
@[simp] theorem State.setDisplay_fr (d : Display) : (s.setDisplay d).fr = s.fr := rfl
@[simp] theorem State.setDisplay_inbox (d : Display) : (s.setDisplay d).inbox = s.inbox := rfl
@[simp] theorem State.setDisplay_rnd (d : Display) : (s.setDisplay d).rnd = s.rnd := rfl
@[simp] theorem State.setDisplay_draws (d : Display) : (s.setDisplay d).draws = s.draws := rfl
@[simp] theorem State.setDisplay_getV (d : Display) (q : RegIdx) : (s.setDisplay d).getV q = s.getV q := rfl
@[simp] theorem State.setDisplay_randomByte (d : Display) : (s.setDisplay d).randomByte = s.randomByte := rfl
@[simp] theorem State.setDisplay_pc0 (d : Display) : (s.setDisplay d).pc0 = s.pc0 := rfl

/-! ### setKeypad -/

@[simp] theorem State.setKeypad_mem (k : Keypad) : (s.setKeypad k).mem = s.mem := rfl
@[simp] theorem State.setKeypad_v (k : Keypad) : (s.setKeypad k).v = s.v := rfl
@[simp] theorem State.setKeypad_i (k : Keypad) : (s.setKeypad k).i = s.i := rfl
@[simp] theorem State.setKeypad_pc (k : Keypad) : (s.setKeypad k).pc = s.pc := rfl
@[simp] theorem State.setKeypad_stack (k : Keypad) : (s.setKeypad k).stack = s.stack := rfl
@[simp] theorem State.setKeypad_sp (k : Keypad) : (s.setKeypad k).sp = s.sp := rfl
@[simp] theorem State.setKeypad_dt (k : Keypad) : (s.setKeypad k).dt = s.dt := rfl
@[simp] theorem State.setKeypad_st (k : Keypad) : (s.setKeypad k).st = s.st := rfl
@[simp] theorem State.setKeypad_display (k : Keypad) : (s.setKeypad k).display = s.display := rfl
@[simp] theorem State.setKeypad_keys (k : Keypad) : (s.setKeypad k).keys = k := rfl
@[simp] theorem State.setKeypad_rs (k : Keypad) : (s.setKeypad k).rs = s.rs := rfl
@[simp] theorem State.setKeypad_fr (k : Keypad) : (s.setKeypad k).fr = s.fr := rfl
@[simp] theorem State.setKeypad_inbox (k : Keypad) : (s.setKeypad k).inbox = s.inbox := rfl
@[simp] theorem State.setKeypad_rnd (k : Keypad) : (s.setKeypad k).rnd = s.rnd := rfl
@[simp] theorem State.setKeypad_draws (k : Keypad) : (s.setKeypad k).draws = s.draws := rfl
@[simp] theorem State.setKeypad_getV (k : Keypad) (q : RegIdx) : (s.setKeypad k).getV q = s.getV q := rfl
@[simp] theorem State.setKeypad_randomByte (k : Keypad) : (s.setKeypad k).randomByte = s.randomByte := rfl
@[simp] theorem State.setKeypad_pc0 (k : Keypad) : (s.setKeypad k).pc0 = s.pc0 := rfl

/-! ### setRs -/

@[simp] theorem State.setRs_mem (r : RunState) : (s.setRs r).mem = s.mem := rfl
@[simp] theorem State.setRs_v (r : RunState) : (s.setRs r).v = s.v := rfl
@[simp] theorem State.setRs_i (r : RunState) : (s.setRs r).i = s.i := rfl
@[simp] theorem State.setRs_pc (r : RunState) : (s.setRs r).pc = s.pc := rfl
@[simp] theorem State.setRs_stack (r : RunState) : (s.setRs r).stack = s.stack := rfl
@[simp] theorem State.setRs_sp (r : RunState) : (s.setRs r).sp = s.sp := rfl
@[simp] theorem State.setRs_dt (r : RunState) : (s.setRs r).dt = s.dt := rfl
@[simp] theorem State.setRs_st (r : RunState) : (s.setRs r).st = s.st := rfl
@[simp] theorem State.setRs_display (r : RunState) : (s.setRs r).display = s.display := rfl
@[simp] theorem State.setRs_keys (r : RunState) : (s.setRs r).keys = s.keys := rfl
@[simp] theorem State.setRs_rs (r : RunState) : (s.setRs r).rs = r := rfl
@[simp] theorem State.setRs_fr (r : RunState) : (s.setRs r).fr = s.fr := rfl
@[simp] theorem State.setRs_inbox (r : RunState) : (s.setRs r).inbox = s.inbox := rfl
@[simp] theorem State.setRs_rnd (r : RunState) : (s.setRs r).rnd = s.rnd := rfl
@[simp] theorem State.setRs_draws (r : RunState) : (s.setRs r).draws = s.draws := rfl
@[simp] theorem State.setRs_getV (r : RunState) (q : RegIdx) : (s.setRs r).getV q = s.getV q := rfl
@[simp] theorem State.setRs_randomByte (r : RunState) : (s.setRs r).randomByte = s.randomByte := rfl
@[simp] theorem State.setRs_pc0 (r : RunState) : (s.setRs r).pc0 = s.pc0 := rfl

/-! ### setFr -/

@[simp] theorem State.setFr_mem (f : FaultRecord) : (s.setFr f).mem = s.mem := rfl
@[simp] theorem State.setFr_v (f : FaultRecord) : (s.setFr f).v = s.v := rfl
@[simp] theorem State.setFr_i (f : FaultRecord) : (s.setFr f).i = s.i := rfl
@[simp] theorem State.setFr_pc (f : FaultRecord) : (s.setFr f).pc = s.pc := rfl
@[simp] theorem State.setFr_stack (f : FaultRecord) : (s.setFr f).stack = s.stack := rfl
@[simp] theorem State.setFr_sp (f : FaultRecord) : (s.setFr f).sp = s.sp := rfl
@[simp] theorem State.setFr_dt (f : FaultRecord) : (s.setFr f).dt = s.dt := rfl
@[simp] theorem State.setFr_st (f : FaultRecord) : (s.setFr f).st = s.st := rfl
@[simp] theorem State.setFr_display (f : FaultRecord) : (s.setFr f).display = s.display := rfl
@[simp] theorem State.setFr_keys (f : FaultRecord) : (s.setFr f).keys = s.keys := rfl
@[simp] theorem State.setFr_rs (f : FaultRecord) : (s.setFr f).rs = s.rs := rfl
@[simp] theorem State.setFr_fr (f : FaultRecord) : (s.setFr f).fr = f := rfl
@[simp] theorem State.setFr_inbox (f : FaultRecord) : (s.setFr f).inbox = s.inbox := rfl
@[simp] theorem State.setFr_rnd (f : FaultRecord) : (s.setFr f).rnd = s.rnd := rfl
@[simp] theorem State.setFr_draws (f : FaultRecord) : (s.setFr f).draws = s.draws := rfl
@[simp] theorem State.setFr_getV (f : FaultRecord) (q : RegIdx) : (s.setFr f).getV q = s.getV q := rfl
@[simp] theorem State.setFr_randomByte (f : FaultRecord) : (s.setFr f).randomByte = s.randomByte := rfl
@[simp] theorem State.setFr_pc0 (f : FaultRecord) : (s.setFr f).pc0 = s.pc0 := rfl

/-! ### setStack -/

@[simp] theorem State.setStack_mem (k : Vector Word Config.stackCapacity) (n : Fin (Config.stackCapacity + 1)) : (s.setStack k n).mem = s.mem := rfl
@[simp] theorem State.setStack_v (k : Vector Word Config.stackCapacity) (n : Fin (Config.stackCapacity + 1)) : (s.setStack k n).v = s.v := rfl
@[simp] theorem State.setStack_i (k : Vector Word Config.stackCapacity) (n : Fin (Config.stackCapacity + 1)) : (s.setStack k n).i = s.i := rfl
@[simp] theorem State.setStack_pc (k : Vector Word Config.stackCapacity) (n : Fin (Config.stackCapacity + 1)) : (s.setStack k n).pc = s.pc := rfl
@[simp] theorem State.setStack_stack (k : Vector Word Config.stackCapacity) (n : Fin (Config.stackCapacity + 1)) : (s.setStack k n).stack = k := rfl
@[simp] theorem State.setStack_sp (k : Vector Word Config.stackCapacity) (n : Fin (Config.stackCapacity + 1)) : (s.setStack k n).sp = n := rfl
@[simp] theorem State.setStack_dt (k : Vector Word Config.stackCapacity) (n : Fin (Config.stackCapacity + 1)) : (s.setStack k n).dt = s.dt := rfl
@[simp] theorem State.setStack_st (k : Vector Word Config.stackCapacity) (n : Fin (Config.stackCapacity + 1)) : (s.setStack k n).st = s.st := rfl
@[simp] theorem State.setStack_display (k : Vector Word Config.stackCapacity) (n : Fin (Config.stackCapacity + 1)) : (s.setStack k n).display = s.display := rfl
@[simp] theorem State.setStack_keys (k : Vector Word Config.stackCapacity) (n : Fin (Config.stackCapacity + 1)) : (s.setStack k n).keys = s.keys := rfl
@[simp] theorem State.setStack_rs (k : Vector Word Config.stackCapacity) (n : Fin (Config.stackCapacity + 1)) : (s.setStack k n).rs = s.rs := rfl
@[simp] theorem State.setStack_fr (k : Vector Word Config.stackCapacity) (n : Fin (Config.stackCapacity + 1)) : (s.setStack k n).fr = s.fr := rfl
@[simp] theorem State.setStack_inbox (k : Vector Word Config.stackCapacity) (n : Fin (Config.stackCapacity + 1)) : (s.setStack k n).inbox = s.inbox := rfl
@[simp] theorem State.setStack_rnd (k : Vector Word Config.stackCapacity) (n : Fin (Config.stackCapacity + 1)) : (s.setStack k n).rnd = s.rnd := rfl
@[simp] theorem State.setStack_draws (k : Vector Word Config.stackCapacity) (n : Fin (Config.stackCapacity + 1)) : (s.setStack k n).draws = s.draws := rfl
@[simp] theorem State.setStack_getV (k : Vector Word Config.stackCapacity) (n : Fin (Config.stackCapacity + 1)) (q : RegIdx) : (s.setStack k n).getV q = s.getV q := rfl
@[simp] theorem State.setStack_randomByte (k : Vector Word Config.stackCapacity) (n : Fin (Config.stackCapacity + 1)) : (s.setStack k n).randomByte = s.randomByte := rfl
@[simp] theorem State.setStack_pc0 (k : Vector Word Config.stackCapacity) (n : Fin (Config.stackCapacity + 1)) : (s.setStack k n).pc0 = s.pc0 := rfl

/-! ### setInbox -/

@[simp] theorem State.setInbox_mem (es : List Event) : (s.setInbox es).mem = s.mem := rfl
@[simp] theorem State.setInbox_v (es : List Event) : (s.setInbox es).v = s.v := rfl
@[simp] theorem State.setInbox_i (es : List Event) : (s.setInbox es).i = s.i := rfl
@[simp] theorem State.setInbox_pc (es : List Event) : (s.setInbox es).pc = s.pc := rfl
@[simp] theorem State.setInbox_stack (es : List Event) : (s.setInbox es).stack = s.stack := rfl
@[simp] theorem State.setInbox_sp (es : List Event) : (s.setInbox es).sp = s.sp := rfl
@[simp] theorem State.setInbox_dt (es : List Event) : (s.setInbox es).dt = s.dt := rfl
@[simp] theorem State.setInbox_st (es : List Event) : (s.setInbox es).st = s.st := rfl
@[simp] theorem State.setInbox_display (es : List Event) : (s.setInbox es).display = s.display := rfl
@[simp] theorem State.setInbox_keys (es : List Event) : (s.setInbox es).keys = s.keys := rfl
@[simp] theorem State.setInbox_rs (es : List Event) : (s.setInbox es).rs = s.rs := rfl
@[simp] theorem State.setInbox_fr (es : List Event) : (s.setInbox es).fr = s.fr := rfl
@[simp] theorem State.setInbox_inbox (es : List Event) : (s.setInbox es).inbox = es := rfl
@[simp] theorem State.setInbox_rnd (es : List Event) : (s.setInbox es).rnd = s.rnd := rfl
@[simp] theorem State.setInbox_draws (es : List Event) : (s.setInbox es).draws = s.draws := rfl
@[simp] theorem State.setInbox_getV (es : List Event) (q : RegIdx) : (s.setInbox es).getV q = s.getV q := rfl
@[simp] theorem State.setInbox_randomByte (es : List Event) : (s.setInbox es).randomByte = s.randomByte := rfl
@[simp] theorem State.setInbox_pc0 (es : List Event) : (s.setInbox es).pc0 = s.pc0 := rfl

/-! ### setDraw -/

@[simp] theorem State.setDraw_mem (r : Option Byte) (n : Nat) : (s.setDraw r n).mem = s.mem := rfl
@[simp] theorem State.setDraw_v (r : Option Byte) (n : Nat) : (s.setDraw r n).v = s.v := rfl
@[simp] theorem State.setDraw_i (r : Option Byte) (n : Nat) : (s.setDraw r n).i = s.i := rfl
@[simp] theorem State.setDraw_pc (r : Option Byte) (n : Nat) : (s.setDraw r n).pc = s.pc := rfl
@[simp] theorem State.setDraw_stack (r : Option Byte) (n : Nat) : (s.setDraw r n).stack = s.stack := rfl
@[simp] theorem State.setDraw_sp (r : Option Byte) (n : Nat) : (s.setDraw r n).sp = s.sp := rfl
@[simp] theorem State.setDraw_dt (r : Option Byte) (n : Nat) : (s.setDraw r n).dt = s.dt := rfl
@[simp] theorem State.setDraw_st (r : Option Byte) (n : Nat) : (s.setDraw r n).st = s.st := rfl
@[simp] theorem State.setDraw_display (r : Option Byte) (n : Nat) : (s.setDraw r n).display = s.display := rfl
@[simp] theorem State.setDraw_keys (r : Option Byte) (n : Nat) : (s.setDraw r n).keys = s.keys := rfl
@[simp] theorem State.setDraw_rs (r : Option Byte) (n : Nat) : (s.setDraw r n).rs = s.rs := rfl
@[simp] theorem State.setDraw_fr (r : Option Byte) (n : Nat) : (s.setDraw r n).fr = s.fr := rfl
@[simp] theorem State.setDraw_inbox (r : Option Byte) (n : Nat) : (s.setDraw r n).inbox = s.inbox := rfl
@[simp] theorem State.setDraw_rnd (r : Option Byte) (n : Nat) : (s.setDraw r n).rnd = r := rfl
@[simp] theorem State.setDraw_draws (r : Option Byte) (n : Nat) : (s.setDraw r n).draws = n := rfl
@[simp] theorem State.setDraw_getV (r : Option Byte) (n : Nat) (q : RegIdx) : (s.setDraw r n).getV q = s.getV q := rfl
@[simp] theorem State.setDraw_pc0 (r : Option Byte) (n : Nat) : (s.setDraw r n).pc0 = s.pc0 := rfl

/-! ### Reading a register after writing one -/

theorem State.getV_setV (r q : RegIdx) (b : Byte) : (s.setV r b).getV q = if q = r then b else s.getV q := by
  simp only [State.getV, State.setV, Vector.getElem_set, Fin.ext_iff, eq_comm]

@[simp] theorem State.getV_setV_same (r : RegIdx) (b : Byte) : (s.setV r b).getV r = b := by
  simp [State.getV_setV]

theorem State.getV_setV_ne {r q : RegIdx} (b : Byte) (h : q ≠ r) : (s.setV r b).getV q = s.getV q := by
  simp [State.getV_setV, h]

@[simp] theorem State.randomByte_setDraw_some (r : Byte) (n : Nat) : (s.setDraw (some r) n).randomByte = r := rfl

@[simp] theorem State.randomByte_setDraw_none (n : Nat) : (s.setDraw none n).randomByte = Config.freeByte n := rfl

/-- While an instruction executes, PC - 2 is the address it was fetched from. -/
theorem State.pc0_setPc_add_two : (s.setPc (s.pc + 2)).pc0 = s.pc := by
  simp [State.pc0]

/-- Two states with the same fields are the same state; the register file may be compared register by register. -/
theorem State.eq_of_getV {s t : State} (hv : ∀ r, t.getV r = s.getV r) (h : t = { s with v := t.v }) : t = s := by
  have : t.v = s.v := by
    apply Vector.ext
    intro k hk
    exact hv ⟨k, hk⟩
  rw [h, this]

end Sys2Proof.Machine
end

