-- ==== Sys2Proof/Laws/Memory.lean ====
section
/-! SUPPORT. The laws of memory: read after write, and that every operation keeps the canonical form. -/

set_option Elab.async false

namespace Sys2Proof.Machine

/-- The font bytes are the 80 from FONT_BASE on (20_memory.md R59). -/
theorem isFontAddr_iff (a : Nat) : isFontAddr a = true ↔ Config.fontBase ≤ a ∧ a < Config.fontBase + 80 := by
  rw [isFontAddr, Bool.and_eq_true, decide_eq_true_eq, decide_eq_true_eq]
  rfl

@[simp] theorem Memory.read_nil (a : Nat) : Memory.read [] a = initialByte a := rfl

theorem Memory.read_cons (b : Nat) (u : Byte) (m : Memory) (a : Nat) :
    Memory.read ((b, u) :: m) a = if a = b then u else Memory.read m a := rfl

/-- An address below every listed one is unlisted. -/
theorem Memory.read_of_lt {m : Memory} {a : Nat} (h : m.all (fun c => a < c.1) = true) :
    Memory.read m a = initialByte a := by
  induction m with
  | nil => rfl
  | cons c m ih =>
    obtain ⟨b, u⟩ := c
    simp only [List.all_cons, Bool.and_eq_true, decide_eq_true_eq] at h
    rw [Memory.read_cons, if_neg (by omega), ih h.2]

theorem Memory.wf_cons {a : Nat} {v : Byte} {m : Memory} :
    Memory.wf ((a, v) :: m) = true ↔
      a < Config.memSize ∧ v ≠ initialByte a ∧ m.all (fun c => a < c.1) = true ∧ Memory.wf m = true := by
  simp [Memory.wf, and_assoc]

/-- Read after write. -/
theorem Memory.read_write {m : Memory} (h : Memory.wf m = true) (a b : Nat) (v : Byte) :
    Memory.read (Memory.write m a v) b = if b = a then v else Memory.read m b := by
  induction m with
  | nil =>
    by_cases hv : v = initialByte a <;> by_cases hb : b = a <;> simp [Memory.write, Memory.read, hv, hb]
  | cons c m ih =>
    obtain ⟨k, u⟩ := c
    obtain ⟨_, _, hlt, hm⟩ := Memory.wf_cons.1 h
    have below : ∀ x, x ≤ k → m.all (fun c => x < c.1) = true := by
      intro x hx
      rw [List.all_eq_true] at hlt ⊢
      intro c hc
      have := hlt c hc
      simp only [decide_eq_true_eq] at this ⊢
      omega
    by_cases h1 : a < k
    · by_cases hv : v = initialByte a
      · by_cases hb : b = a
        · subst hb
          simp [Memory.write, Memory.read_cons, h1, hv, Nat.ne_of_lt h1, Memory.read_of_lt (below b (by omega))]
        · simp [Memory.write, h1, hv, hb]
      · simp [Memory.write, Memory.read_cons, h1, hv]
    · by_cases h2 : a = k
      · subst h2
        by_cases hv : v = initialByte a
        · by_cases hb : b = a
          · subst hb
            simp [Memory.write, hv, Memory.read_of_lt hlt]
          · simp [Memory.write, hv, hb, Memory.read_cons]
        · by_cases hb : b = a <;> simp [Memory.write, hv, Memory.read_cons, hb]
      · by_cases hb : b = k
        · subst hb
          simp [Memory.write, Memory.read_cons, h1, h2, Ne.symm h2]
        · simp [Memory.write, Memory.read_cons, h1, h2, hb, ih hm]

theorem Memory.read_write_same {m : Memory} (h : Memory.wf m = true) (a : Nat) (v : Byte) :
    Memory.read (Memory.write m a v) a = v := by
  simp [Memory.read_write h]

theorem Memory.read_write_ne {m : Memory} (h : Memory.wf m = true) {a b : Nat} (v : Byte) (hb : b ≠ a) :
    Memory.read (Memory.write m a v) b = Memory.read m b := by
  simp [Memory.read_write h, hb]

/-- A write lists no address below both its own and the listed ones. -/
theorem Memory.all_lt_write {m : Memory} {k a : Nat} {v : Byte} (hk : k < a)
    (h : m.all (fun c => k < c.1) = true) : (Memory.write m a v).all (fun c => k < c.1) = true := by
  induction m with
  | nil => by_cases hv : v = initialByte a <;> simp [Memory.write, hv, hk]
  | cons c m ih =>
    obtain ⟨b, u⟩ := c
    simp only [List.all_cons, Bool.and_eq_true, decide_eq_true_eq] at h
    unfold Memory.write
    split
    · split
      · simpa using h
      · simp only [List.all_cons, Bool.and_eq_true, decide_eq_true_eq]
        exact ⟨hk, h⟩
    · split
      · split
        · exact h.2
        · simp only [List.all_cons, Bool.and_eq_true, decide_eq_true_eq]
          exact ⟨hk, h.2⟩
      · simp only [List.all_cons, Bool.and_eq_true, decide_eq_true_eq]
        exact ⟨h.1, ih h.2⟩

/-- A write keeps the canonical form. -/
theorem Memory.wf_write {m : Memory} (h : Memory.wf m = true) {a : Nat} (ha : a < Config.memSize) (v : Byte) :
    Memory.wf (Memory.write m a v) = true := by
  induction m with
  | nil =>
    by_cases hv : v = initialByte a
    · simp [Memory.write, hv, Memory.wf]
    · simp [Memory.write, hv, Memory.wf, ha]
  | cons c m ih =>
    obtain ⟨k, u⟩ := c
    obtain ⟨hk, hu, hlt, hm⟩ := Memory.wf_cons.1 h
    unfold Memory.write
    split
    · rename_i h1
      split
      · exact h
      · rename_i hv
        refine Memory.wf_cons.2 ⟨ha, hv, ?_, h⟩
        simp only [List.all_cons, Bool.and_eq_true, decide_eq_true_eq]
        refine ⟨h1, ?_⟩
        rw [List.all_eq_true] at hlt ⊢
        intro c hc
        have := hlt c hc
        simp only [decide_eq_true_eq] at this ⊢
        omega
    · split
      · rename_i h2
        split
        · exact hm
        · rename_i hv
          exact Memory.wf_cons.2 ⟨ha, hv, h2 ▸ hlt, hm⟩
      · exact Memory.wf_cons.2 ⟨hk, hu, Memory.all_lt_write (by omega) hlt, ih hm⟩

/-- Bytes placed inside the address space keep the canonical form. -/
theorem Memory.wf_place {m : Memory} (h : Memory.wf m = true) {a : Nat} {bs : List Byte}
    (ha : a + bs.length ≤ Config.memSize) : Memory.wf (Memory.place m a bs) = true := by
  induction bs generalizing m a with
  | nil => exact h
  | cons b bs ih =>
    simp only [List.length_cons] at ha
    exact ih (Memory.wf_write h (by omega) b) (by omega)

/-- Reading after bytes are placed: the placed byte inside, what was there before outside. -/
theorem Memory.read_place {m : Memory} (h : Memory.wf m = true) {a : Nat} {bs : List Byte}
    (ha : a + bs.length ≤ Config.memSize) (c : Nat) :
    Memory.read (Memory.place m a bs) c =
      if a ≤ c ∧ c < a + bs.length then bs.getD (c - a) 0 else Memory.read m c := by
  induction bs generalizing m a with
  | nil => simp [Memory.place]
  | cons b bs ih =>
    simp only [List.length_cons] at ha ⊢
    rw [Memory.place, ih (Memory.wf_write h (by omega) b) (by omega), Memory.read_write h]
    by_cases h1 : c = a
    · subst h1; simp
    · by_cases h2 : a + 1 ≤ c ∧ c < a + 1 + bs.length
      · have h3 : c - a = (c - (a + 1)) + 1 := by omega
        rw [if_pos h2, if_pos (by omega), h3]; simp
      · rw [if_neg h2, if_neg h1, if_neg (by omega)]

/-- The memory of the reset state is in canonical form. -/
theorem Memory.wf_reset : Memory.wf State.reset.mem = true := rfl

end Sys2Proof.Machine
end

