-- ==== Sys2Proof/Laws/Ops.lean ====
section
/-! SUPPORT. One law per shared operation of Machine/Ops.lean and Machine/Operands.lean: everything it can do, for proofs to
cite instead of unfolding it. -/

set_option Elab.async false

namespace Sys2Proof.Machine

/-! ### Reading memory -/

theorem memRead_of_lt (m : Memory) {a : Nat} (h : a < Config.memSize) : memRead m a = .ok (Memory.read m a) := by
  simp [memRead, h]

theorem memRead_of_ge (m : Memory) {a : Nat} (h : Config.memSize ≤ a) : memRead m a = .error ⟨.memOobRead, a⟩ := by
  simp [memRead, Nat.not_lt.2 h]

/-- A range inside memory is read byte by byte. -/
theorem readBytes_of_le (m : Memory) {a n : Nat} (h : n = 0 ∨ a + n ≤ Config.memSize) :
    readBytes m a n = .ok ((List.range n).map fun k => Memory.read m (a + k)) := by
  induction n generalizing a with
  | zero => rfl
  | succ n ih =>
    have h1 : a + (n + 1) ≤ Config.memSize := by omega
    rw [readBytes, memRead_of_lt m (by omega), ih (by omega), List.range_succ_eq_map]
    simp [Function.comp_def, Nat.add_left_comm, Nat.add_comm]

/-- A range that leaves memory raises at its lowest byte outside (40_display.md R114 (f), 43_index_memory.md R169). -/
theorem readBytes_of_gt (m : Memory) {a n : Nat} (hn : 0 < n) (h : Config.memSize < a + n) :
    readBytes m a n = .error ⟨.memOobRead, max a Config.memSize⟩ := by
  induction n generalizing a with
  | zero => omega
  | succ n ih =>
    by_cases h1 : a < Config.memSize
    · rw [readBytes, memRead_of_lt m h1]
      simp only
      rw [ih (by omega) (by omega)]
      simp only [Except.error.injEq, Raise.mk.injEq, true_and]
      omega
    · rw [readBytes, memRead_of_ge m (by omega)]
      simp only [Except.error.injEq, Raise.mk.injEq, true_and]
      omega

/-- Everything a read of a range can do. -/
theorem readBytes_cases (m : Memory) (a n : Nat) :
    readBytes m a n = .ok ((List.range n).map fun k => Memory.read m (a + k)) ∨
    readBytes m a n = .error ⟨.memOobRead, max a Config.memSize⟩ := by
  by_cases h : n = 0 ∨ a + n ≤ Config.memSize
  · exact .inl (readBytes_of_le m h)
  · exact .inr (readBytes_of_gt m (by omega) (by omega))

/-- A fetch inside memory reads a big-endian word. -/
theorem fetch16_of_lt (m : Memory) {a : Nat} (h : a + 1 < Config.memSize) :
    fetch16 m a = .ok (wordOfBytes (Memory.read m a) (Memory.read m (a + 1))) := by
  simp [fetch16, h, Nat.lt_of_succ_lt h]

/-- A fetch that leaves memory raises at its lowest byte outside. -/
theorem fetch16_of_ge (m : Memory) {a : Nat} (h : Config.memSize ≤ a + 1) :
    fetch16 m a = .error ⟨.memOobFetch, max a Config.memSize⟩ := by
  unfold fetch16
  split
  · rw [if_neg (by omega)]
    simp only [Except.error.injEq, Raise.mk.injEq, true_and]
    omega
  · simp only [Except.error.injEq, Raise.mk.injEq, true_and]
    omega

/-! ### Writing memory -/

theorem memWriteUnder_of_storable (p : Config.FontWritePolicy) (m : Memory) {a : Nat} (v : Byte)
    (h : a < Config.memSize) (hf : isFontAddr a = false) : memWriteUnder p m a v = .ok (Memory.write m a v) := by
  simp [memWriteUnder, h, hf]

/-- Everything a byte write can do. -/
theorem memWriteUnder_cases (p : Config.FontWritePolicy) (m : Memory) (a : Nat) (v : Byte) :
    (a < Config.memSize ∧ (isFontAddr a = false ∨ p = .allow) ∧ memWriteUnder p m a v = .ok (Memory.write m a v)) ∨
    (a < Config.memSize ∧ isFontAddr a = true ∧ p = .ignore ∧ memWriteUnder p m a v = .ok m) ∨
    (a < Config.memSize ∧ isFontAddr a = true ∧ p = .fatal ∧ memWriteUnder p m a v = .error ⟨.fontWrite, a⟩) ∨
    (Config.memSize ≤ a ∧ memWriteUnder p m a v = .error ⟨.memOobWrite, a⟩) := by
  unfold memWriteUnder
  by_cases h : a < Config.memSize
  · by_cases hf : isFontAddr a = true
    · cases p <;> simp [h, hf]
    · simp [h, hf]
  · simp [h, Nat.not_lt.1 h]

theorem Storable.head {a n : Nat} (h : Storable a (n + 1)) : a < Config.memSize ∧ isFontAddr a = false := by
  simpa using h 0 (by omega)

theorem Storable.tail {a n : Nat} (h : Storable a (n + 1)) : Storable (a + 1) n := by
  intro k hk
  have := h (k + 1) (by omega)
  rwa [show a + (k + 1) = a + 1 + k by omega] at this

/-- A storable range is written byte by byte, whatever the policy. -/
theorem writeBytesUnder_of_storable (p : Config.FontWritePolicy) {m : Memory} {a : Nat} {bs : List Byte}
    (h : Storable a bs.length) : writeBytesUnder p m a bs = .ok (Memory.place m a bs) := by
  induction bs generalizing m a with
  | nil => rfl
  | cons b bs ih =>
    obtain ⟨h0, h1⟩ := h.head
    rw [writeBytesUnder, memWriteUnder_of_storable p m b h0 h1]
    exact ih h.tail

/-- The first byte of a range that is outside memory is the one raised. -/
theorem writeBytesUnder_oob (p : Config.FontWritePolicy) {m : Memory} {a k : Nat} {bs : List Byte}
    (h : Storable a k) (hk : k < bs.length) (ho : Config.memSize ≤ a + k) :
    writeBytesUnder p m a bs = .error ⟨.memOobWrite, a + k⟩ := by
  induction bs generalizing m a k with
  | nil => simp at hk
  | cons b bs ih =>
    cases k with
    | zero => simp [writeBytesUnder, memWriteUnder, show ¬ a < Config.memSize by omega]
    | succ k =>
      obtain ⟨h0, h1⟩ := h.head
      rw [writeBytesUnder, memWriteUnder_of_storable p m b h0 h1]
      simp only
      rw [ih h.tail (by simpa using hk) (by omega)]
      simp only [Except.error.injEq, Raise.mk.injEq, true_and]
      omega

/-- The first byte of a range that is a font byte is the one raised, under the policy FATAL. -/
theorem writeBytesUnder_font {m : Memory} {a k : Nat} {bs : List Byte}
    (h : Storable a k) (hk : k < bs.length) (ho : a + k < Config.memSize) (hf : isFontAddr (a + k) = true) :
    writeBytesUnder .fatal m a bs = .error ⟨.fontWrite, a + k⟩ := by
  induction bs generalizing m a k with
  | nil => simp at hk
  | cons b bs ih =>
    cases k with
    | zero => simp_all [writeBytesUnder, memWriteUnder]
    | succ k =>
      obtain ⟨h0, h1⟩ := h.head
      rw [writeBytesUnder, memWriteUnder_of_storable .fatal m b h0 h1]
      simp only
      rw [ih h.tail (by simpa using hk) (by omega) (by rwa [show a + 1 + k = a + (k + 1) by omega])]
      simp only [Except.error.injEq, Raise.mk.injEq, true_and]
      omega

/-- What a write of a range that is not raised leaves: the canonical form, everything outside the range and, but under
ALLOW, the font. -/
theorem writeBytesUnder_ok (p : Config.FontWritePolicy) {m m' : Memory} {a : Nat} {bs : List Byte}
    (hw : Memory.wf m = true) (h : writeBytesUnder p m a bs = .ok m') :
    Memory.wf m' = true ∧
    (∀ c, ¬ (a ≤ c ∧ c < a + bs.length) → Memory.read m' c = Memory.read m c) ∧
    (p ≠ .allow → ∀ c, isFontAddr c = true → Memory.read m' c = Memory.read m c) := by
  induction bs generalizing m a with
  | nil => cases h; exact ⟨hw, fun _ _ => rfl, fun _ _ _ => rfl⟩
  | cons b bs ih =>
    rw [writeBytesUnder] at h
    obtain ⟨h0, h1, h2⟩ | ⟨h0, h1, -, h2⟩ | ⟨-, -, -, h2⟩ | ⟨-, h2⟩ := memWriteUnder_cases p m a b <;> rw [h2] at h
    · obtain ⟨i1, i2, i3⟩ := ih (Memory.wf_write hw h0 b) h
      refine ⟨i1, fun c hc => ?_, fun hp c hc => ?_⟩
      · simp only [List.length_cons] at hc
        rw [i2 c (by omega), Memory.read_write_ne hw b (by omega)]
      · have hne : c ≠ a := by
          rintro rfl
          rcases h1 with h1 | h1
          · simp [h1] at hc
          · exact hp h1
        rw [i3 hp c hc, Memory.read_write_ne hw b hne]
    · obtain ⟨i1, i2, i3⟩ := ih hw h
      refine ⟨i1, fun c hc => ?_, i3⟩
      simp only [List.length_cons] at hc
      exact i2 c (by omega)
    · cases h
    · cases h

/-! ### The register file, by ranges -/

/-- Only the register file changes. -/
theorem State.setVFrom_eq (s : State) (k : Nat) (bs : List Byte) :
    s.setVFrom k bs = { s with v := (s.setVFrom k bs).v } := by
  induction bs generalizing s k with
  | nil => rfl
  | cons b bs ih =>
    by_cases h : k < 16
    · simp only [State.setVFrom, h, dite_true]
      rw [ih]
      rfl
    · simp [State.setVFrom, h]

theorem State.getV_setVFrom (s : State) {k : Nat} {bs : List Byte} (hk : k + bs.length ≤ 16) (r : RegIdx) :
    (s.setVFrom k bs).getV r =
      if k ≤ r.val ∧ r.val < k + bs.length then bs.getD (r.val - k) 0 else s.getV r := by
  induction bs generalizing s k with
  | nil => simp [State.setVFrom]
  | cons b bs ih =>
    simp only [List.length_cons] at hk ⊢
    have h : k < 16 := by omega
    simp only [State.setVFrom, h, dite_true]
    rw [ih (s.setV ⟨k, h⟩ b) (by omega), State.getV_setV]
    by_cases h1 : r.val = k
    · have : r = ⟨k, h⟩ := Fin.ext h1
      subst this; simp
    · by_cases h2 : k + 1 ≤ r.val ∧ r.val < k + 1 + bs.length
      · have h3 : r.val - k = (r.val - (k + 1)) + 1 := by omega
        rw [if_pos h2, if_pos (by omega), h3]; simp
      · rw [if_neg h2, if_neg (by simpa [Fin.ext_iff] using h1), if_neg (by omega)]

@[simp] theorem State.getVFrom_length (s : State) {k n : Nat} (h : k + n ≤ 16) : (s.getVFrom k n).length = n := by
  induction n generalizing k with
  | zero => rfl
  | succ n ih => simp [State.getVFrom, show k < 16 by omega, ih (show k + 1 + n ≤ 16 by omega)]

theorem State.getVFrom_getD (s : State) {k n j : Nat} (h : k + n ≤ 16) (hj : j < n) :
    (s.getVFrom k n).getD j 0 = s.getV ⟨k + j, by omega⟩ := by
  induction n generalizing k j with
  | zero => omega
  | succ n ih =>
    have hk : k < 16 := by omega
    cases j with
    | zero => simp [State.getVFrom, hk]
    | succ j =>
      have := ih (k := k + 1) (j := j) (by omega) (by omega)
      simpa [State.getVFrom, hk, show k + 1 + j = k + (j + 1) by omega] using this

@[simp] theorem State.regsUpTo_length (s : State) (x : RegIdx) : (s.regsUpTo x).length = x.val + 1 :=
  State.getVFrom_length s (by omega)

theorem State.regsUpTo_getD (s : State) (x r : RegIdx) (h : r ≤ x) : (s.regsUpTo x).getD r.val 0 = s.getV r := by
  have := State.getVFrom_getD s (k := 0) (n := x.val + 1) (j := r.val) (by omega)
    (Nat.lt_succ_of_le h)
  simpa [State.regsUpTo] using this

/-! ### The keypad -/

theorem lowestKeyFrom_spec (ks : Keypad) (k fuel : Nat) (hf : k + fuel = 16) :
    (∀ r : RegIdx, lowestKeyFrom ks k fuel = some r →
      k ≤ r.val ∧ ks[r.val] = true ∧ ∀ j, k ≤ j → (hj : j < r.val) → ks[j] = false) ∧
    (lowestKeyFrom ks k fuel = none → ∀ j, k ≤ j → (hj : j < 16) → ks[j] = false) := by
  induction fuel generalizing k with
  | zero => exact ⟨fun r h => by simp [lowestKeyFrom] at h, fun _ j h1 h2 => by omega⟩
  | succ n ih =>
    have hk : k < 16 := by omega
    obtain ⟨ih1, ih2⟩ := ih (k + 1) (by omega)
    rw [lowestKeyFrom, dif_pos hk]
    by_cases hd : ks[k] = true
    · rw [if_pos hd]
      refine ⟨fun r h => ?_, fun h => by cases h⟩
      cases h
      exact ⟨Nat.le_refl _, hd, fun j h1 h2 => by simp at h2; omega⟩
    · rw [if_neg hd]
      refine ⟨fun r h => ?_, fun h j h1 h2 => ?_⟩
      · obtain ⟨h1, h2, h3⟩ := ih1 r h
        refine ⟨by omega, h2, fun j hj1 hj2 => ?_⟩
        by_cases hjk : j = k
        · subst hjk; simpa using hd
        · exact h3 j (by omega) hj2
      · by_cases hjk : j = k
        · subst hjk; simpa using hd
        · exact ih2 h j (by omega) h2

/-- A key found is pressed, and no lower one is. -/
theorem lowestKey_some {ks : Keypad} {k : RegIdx} (h : lowestKey ks = some k) :
    ks[k.val] = true ∧ ∀ j : RegIdx, j < k → ks[j.val] = false := by
  obtain ⟨_, h2, h3⟩ := (lowestKeyFrom_spec ks 0 16 rfl).1 k h
  exact ⟨h2, fun j hj => h3 j.val (Nat.zero_le _) hj⟩

/-- No key found means no key pressed. -/
theorem lowestKey_none {ks : Keypad} (h : lowestKey ks = none) (j : RegIdx) : ks[j.val] = false :=
  (lowestKeyFrom_spec ks 0 16 rfl).2 h j.val (Nat.zero_le _) j.isLt

/-! ### The stack -/

theorem push_of_lt (s : State) (w : Word) (h : s.sp.val < Config.stackCapacity) :
    push s w = .ok (s.setStack (s.stack.set s.sp.val w) ⟨s.sp.val + 1, Nat.succ_lt_succ h⟩) := by
  rw [push, dif_pos h]

theorem push_full (s : State) (w : Word) (h : s.sp.val = Config.stackCapacity) :
    push s w = .error ⟨.stackOverflow, 0⟩ := by
  rw [push, dif_neg (by omega)]

theorem pop_of_pos (s : State) (h : 0 < s.sp.val) :
    pop s = .ok (s.stack[s.sp.val - 1]'(by omega), s.setStack s.stack ⟨s.sp.val - 1, by omega⟩) := by
  rw [pop, dif_pos h]

theorem pop_empty (s : State) (h : s.sp.val = 0) : pop s = .error ⟨.stackUnderflow, 0⟩ := by
  rw [pop, dif_neg (by omega)]

/-! ### Committing and the fatal path -/

@[simp] theorem commit_ok (i : Instr) (s t : State) : commit i s (.ok t) = .next t := rfl

@[simp] theorem commit_error (i : Instr) (s : State) (e : Raise) :
    commit i s (.error e) = .next (fatalPath s s.pc0 (some (encode i)) e) := rfl

/-- Everything a commit can do: it always answers a next state. -/
theorem commit_next {i : Instr} {s t : State} {r : Except Raise State} (h : commit i s r = .next t) :
    r = .ok t ∨ ∃ e, r = .error e ∧ t = fatalPath s s.pc0 (some (encode i)) e := by
  cases r with
  | ok u => cases h; exact .inl rfl
  | error e => cases h; exact .inr ⟨e, rfl, rfl⟩

/-- What the fatal path changes: PC, FR and RS, nothing else (60_exceptions.md R222). -/
theorem fatalPath_eq (s : State) (p : Word) (w : Option Word) (e : Raise) :
    fatalPath s p w e = { s with pc := p, rs := .quit, fr := (fatalPath s p w e).fr } := rfl

@[simp] theorem fatalPath_fr (s : State) (p : Word) (w : Option Word) (e : Raise) :
    (fatalPath s p w e).fr =
      { valid := true, kind := e.kind, pc := p, opcode := w.getD 0, opcodeValid := w.isSome,
        addr := BitVec.ofNat 17 e.addr } := rfl

@[simp] theorem fatalPath_rs (s : State) (p : Word) (w : Option Word) (e : Raise) : (fatalPath s p w e).rs = .quit := rfl

@[simp] theorem fatalPath_pc (s : State) (p : Word) (w : Option Word) (e : Raise) : (fatalPath s p w e).pc = p := rfl

@[simp] theorem fatalPath_mem (s : State) (p : Word) (w : Option Word) (e : Raise) : (fatalPath s p w e).mem = s.mem := rfl

@[simp] theorem fatalPath_getV (s : State) (p : Word) (w : Option Word) (e : Raise) (r : RegIdx) :
    (fatalPath s p w e).getV r = s.getV r := rfl

/-! ### The skip -/

@[simp] theorem skipIf_true (s : State) : skipIf true s = s.setPc (s.pc + 2) := rfl

@[simp] theorem skipIf_false (s : State) : skipIf false s = s := rfl

end Sys2Proof.Machine
end

