-- ==== Sys2Proof/Laws/Display.lean ====
section
/-! SUPPORT. The laws of the display: one pixel after a flip, after a clear, and what one bit of a sprite can do. -/

set_option Elab.async false

namespace Sys2Proof.Machine

/-- A flip changes its own pixel only. -/
theorem Display.pixel_flip (d : Display) (x a : Fin 64) (y b : Fin 32) :
    Display.pixel (Display.flip d x y) a b =
      if a = x ∧ b = y then !Display.pixel d x y else Display.pixel d a b := by
  by_cases hx : a = x
  · subst hx
    by_cases hy : b = y
    · subst hy; simp [Display.pixel, Display.flip]
    · have : y.val ≠ b.val := fun h => hy (Fin.ext h.symm)
      simp [Display.pixel, Display.flip, hy, Vector.getElem_set_ne _ _ this]
  · have : x.val ≠ a.val := fun h => hx (Fin.ext h.symm)
    simp [Display.pixel, Display.flip, hx, Vector.getElem_set_ne _ _ this]

@[simp] theorem Display.pixel_blank (x : Fin 64) (y : Fin 32) : Display.pixel Display.blank x y = false := by
  simp [Display.pixel, Display.blank]

/-- Displays with the same pixels are the same. -/
theorem Display.ext_pixel {d e : Display} (h : ∀ x y, Display.pixel d x y = Display.pixel e x y) : d = e := by
  apply Vector.ext
  intro x hx
  apply Vector.ext
  intro y hy
  exact h ⟨x, hx⟩ ⟨y, hy⟩

/-- Everything one bit of a sprite row can do (40_display.md R111, R113). -/
theorem drawBit_cases (edge : Config.DrawEdge) (x0 y0 row : Nat) (bits : Byte) (acc : Display × Bool) (col : Nat) :
    (∃ x y, bits.getLsbD (7 - col) = true ∧ place edge x0 y0 col row = some (x, y) ∧
      drawBit edge x0 y0 row bits acc col = (Display.flip acc.1 x y, acc.2 || Display.pixel acc.1 x y)) ∨
    ((bits.getLsbD (7 - col) = false ∨ place edge x0 y0 col row = none) ∧
      drawBit edge x0 y0 row bits acc col = acc) := by
  unfold drawBit
  by_cases hb : bits.getLsbD (7 - col) = true
  · rw [if_pos hb]
    cases hp : place edge x0 y0 col row with
    | none => exact .inr ⟨.inr rfl, rfl⟩
    | some q => exact .inl ⟨q.1, q.2, hb, rfl, rfl⟩
  · rw [if_neg hb]
    exact .inr ⟨.inl (by simpa using hb), rfl⟩

end Sys2Proof.Machine
end

