-- ==== Sys2Proof/Laws/Exec.lean ====
section
/-! SUPPORT. The equations of exec over the shared operations, so that no proof unfolds the dispatch, and what every
instruction can end in. -/

set_option Elab.async false

namespace Sys2Proof.Machine

/-- Every instruction ends in a commit: its writes, or the fatal path (60_exceptions.md R221). -/
theorem exec_is_commit (i : Instr) (s : State) : ∃ r, exec i s = commit i s r := by
  delta exec execCls execRet execJp execCall execSeByte execSneByte execSeReg execLdByte execAddByte execLdReg execOrReg
    execAndReg execXorReg execAddReg execSubReg execShr execSubn execShl execSneReg execLdI execJpV0 execRnd execDrw execSkp
    execSknp execLdVxDt execLdVxK execLdDtVx execLdStVx execAddI execLdF execLdB execStore execLoad
  cases i <;> exact ⟨_, rfl⟩

/-- An instruction that answers next has committed its writes, or has raised. -/
theorem exec_next {i : Instr} {s t : State} (h : exec i s = .next t) :
    (exec i s = commit i s (.ok t)) ∨ ∃ e, t = fatalPath s s.pc0 (some (encode i)) e := by
  obtain ⟨r, hr⟩ := exec_is_commit i s
  rw [hr] at h
  obtain rfl | ⟨e, -, rfl⟩ := commit_next h
  · exact .inl hr
  · exact .inr ⟨e, rfl⟩

variable (s : State) (x y : RegIdx) (n : BitVec 4) (nn : Byte) (nnn : BitVec 12)

theorem exec_jp : exec (.jp nnn) s = .next ((s.setPc (zext16 nnn))) := rfl

theorem exec_seByte : exec (.seByte x nn) s = .next ((skipIf (s.getV x == nn) s)) := rfl

theorem exec_sneByte : exec (.sneByte x nn) s = .next ((skipIf (s.getV x != nn) s)) := rfl

theorem exec_seReg : exec (.seReg x y n) s = .next ((skipIf (s.getV x == s.getV y) s)) := rfl

theorem exec_sneReg : exec (.sneReg x y n) s = .next ((skipIf (s.getV x != s.getV y) s)) := rfl

theorem exec_jpV0 : exec (.jpV0 nnn) s = .next ((s.setPc (zext16 nnn + (s.getV 0).setWidth 16))) := rfl

theorem exec_ldByte : exec (.ldByte x nn) s = .next ((s.setV x nn)) := rfl

theorem exec_addByte : exec (.addByte x nn) s = .next ((s.setV x (s.getV x + nn))) := rfl

theorem exec_ldReg : exec (.ldReg x y) s = .next ((s.setV x (s.getV y))) := rfl

theorem exec_orReg : exec (.orReg x y) s = .next ((logicUnder Config.logicVfReset (fun a b => a ||| b) x y s)) := rfl

theorem exec_andReg : exec (.andReg x y) s = .next ((logicUnder Config.logicVfReset (fun a b => a &&& b) x y s)) := rfl

theorem exec_xorReg : exec (.xorReg x y) s = .next ((logicUnder Config.logicVfReset (fun a b => a ^^^ b) x y s)) := rfl

theorem exec_addReg : exec (.addReg x y) s = .next ((s.setResultFlag x (s.getV x + s.getV y) (carryFlag (s.getV x) (s.getV y)))) := rfl

theorem exec_subReg : exec (.subReg x y) s = .next ((s.setResultFlag x (s.getV x - s.getV y) (notBorrowFlag (s.getV x) (s.getV y)))) := rfl

theorem exec_shr : exec (.shr x y) s = .next ((shrUnder Config.shiftSource x y s)) := rfl

theorem exec_subn : exec (.subn x y) s = .next ((s.setResultFlag x (s.getV y - s.getV x) (notBorrowFlag (s.getV y) (s.getV x)))) := rfl

theorem exec_shl : exec (.shl x y) s = .next ((shlUnder Config.shiftSource x y s)) := rfl

theorem exec_rnd : exec (.rnd x nn) s = .next ((s.setV x (s.randomByte &&& nn))) := rfl

theorem exec_ldI : exec (.ldI nnn) s = .next ((s.setI (zext16 nnn))) := rfl

theorem exec_addI : exec (.addI x) s = .next ((s.setI (s.i + (s.getV x).setWidth 16))) := rfl

theorem exec_ldF : exec (.ldF x) s = .next ((s.setI (glyphAddr (s.getV x)))) := rfl

theorem exec_skp : exec (.skp x) s = .next ((skipIf (s.keyOf x) s)) := rfl

theorem exec_sknp : exec (.sknp x) s = .next ((skipIf (!s.keyOf x) s)) := rfl

theorem exec_ldVxDt : exec (.ldVxDt x) s = .next ((s.setV x s.dt)) := rfl

theorem exec_ldDtVx : exec (.ldDtVx x) s = .next ((s.setDt (s.getV x))) := rfl

theorem exec_ldStVx : exec (.ldStVx x) s = .next ((s.setSt (s.getV x))) := rfl

theorem exec_cls (z : BitVec 4) : exec (.cls z) s = .next (s.setDisplay Display.blank) := rfl

/-- CALL with room on the stack (41_control_flow.md R124). -/
theorem exec_call (h : s.sp.val < Config.stackCapacity) :
    exec (.call nnn) s =
      .next ((s.setStack (s.stack.set s.sp.val s.pc) ⟨s.sp.val + 1, Nat.succ_lt_succ h⟩).setPc (zext16 nnn)) := by
  simp only [exec, execCall, push_of_lt s s.pc h, commit_ok]

/-- CALL on a full stack (41_control_flow.md R120). -/
theorem exec_call_full (h : s.sp.val = Config.stackCapacity) :
    exec (.call nnn) s = .next (fatalPath s s.pc0 (some (encode (.call nnn))) ⟨.stackOverflow, 0⟩) := by
  simp only [exec, execCall, push_full s s.pc h, commit_error]

/-- RET with an entry on the stack (41_control_flow.md R122). -/
theorem exec_ret (z : BitVec 4) (h : 0 < s.sp.val) :
    exec (.ret z) s =
      .next ((s.setStack s.stack ⟨s.sp.val - 1, by omega⟩).setPc (s.stack[s.sp.val - 1]'(by omega))) := by
  simp only [exec, execRet, pop_of_pos s h, commit_ok]

/-- RET on an empty stack (41_control_flow.md R121). -/
theorem exec_ret_empty (z : BitVec 4) (h : s.sp.val = 0) :
    exec (.ret z) s = .next (fatalPath s s.pc0 (some (encode (.ret z))) ⟨.stackUnderflow, 0⟩) := by
  simp only [exec, execRet, pop_empty s h, commit_error]

/-- FX0A with a key down, the lowest one being k (44_keys_timers.md R193). -/
theorem exec_ldVxK_pressed {k : RegIdx} (h : lowestKey s.keys = some k) :
    exec (.ldVxK x) s = .next (s.setV x (keyByte k)) := by
  simp only [exec, execLdVxK, h, commit_ok]

/-- FX0A with no key down (44_keys_timers.md R193). -/
theorem exec_ldVxK_waiting (h : lowestKey s.keys = none) : exec (.ldVxK x) s = .next (s.setPc (s.pc - 2)) := by
  simp only [exec, execLdVxK, h, commit_ok]

theorem exec_drw (k : Fin 16) : exec (.drw x y k) s = commit (.drw x y k) s (drawUnder Config.drawEdge x y k.val s) := rfl

theorem exec_ldB : exec (.ldB x) s = commit (.ldB x) s (storeBcdUnder Config.fontWritePolicy x s) := rfl

theorem exec_store :
    exec (.store x) s =
      commit (.store x) s (storeRegsUnder Config.fontWritePolicy Config.loadStoreIncrement x s) := rfl

theorem exec_load : exec (.load x) s = commit (.load x) s (loadRegsUnder Config.loadStoreIncrement x s) := rfl

end Sys2Proof.Machine
end

