-- ==== Sys2Proof/Laws/PerInstr.lean ====
section
/-! SUPPORT. Laws per instruction, one lemma for each constructor. Family EncodeClass: the operation class of the encoder's
word is the one the opcode map gives the instruction's row (30_encoding.md R84). -/

set_option Elab.async false

namespace Sys2Proof

/-- The class column of 30_encoding.md R84. -/
def Instr.opClass : Instr → BitVec 4
  | .cls _ | .ret _ => 0x0
  | .jp _ => 0x1
  | .call _ => 0x2
  | .seByte _ _ => 0x3
  | .sneByte _ _ => 0x4
  | .seReg _ _ _ => 0x5
  | .ldByte _ _ => 0x6
  | .addByte _ _ => 0x7
  | .ldReg _ _ | .orReg _ _ | .andReg _ _ | .xorReg _ _ | .addReg _ _ | .subReg _ _ | .shr _ _ | .subn _ _ | .shl _ _ => 0x8
  | .sneReg _ _ _ => 0x9
  | .ldI _ => 0xA
  | .jpV0 _ => 0xB
  | .rnd _ _ => 0xC
  | .drw _ _ _ => 0xD
  | .skp _ | .sknp _ => 0xE
  | .ldVxDt _ | .ldVxK _ | .ldDtVx _ | .ldStVx _ | .addI _ | .ldF _ | .ldB _ | .store _ | .load _ => 0xF

end Sys2Proof

namespace Sys2Proof.Laws.EncodeClass

/-- The class of the encoded word is the instruction's. -/
def Statement (i : Instr) : Prop := fieldC (encode i) = i.opClass

theorem cls (x : BitVec 4) : Statement (.cls x) := fieldC_assembleXNN _ _ _
theorem ret (x : BitVec 4) : Statement (.ret x) := fieldC_assembleXNN _ _ _
theorem jp (nnn : BitVec 12) : Statement (.jp nnn) := fieldC_assembleNNN _ _
theorem call (nnn : BitVec 12) : Statement (.call nnn) := fieldC_assembleNNN _ _
theorem seByte (x : RegIdx) (nn : Byte) : Statement (.seByte x nn) := fieldC_assembleXNN _ _ _
theorem sneByte (x : RegIdx) (nn : Byte) : Statement (.sneByte x nn) := fieldC_assembleXNN _ _ _
theorem seReg (x : RegIdx) (y : RegIdx) (n : BitVec 4) : Statement (.seReg x y n) := fieldC_assemble _ _ _ _
theorem ldByte (x : RegIdx) (nn : Byte) : Statement (.ldByte x nn) := fieldC_assembleXNN _ _ _
theorem addByte (x : RegIdx) (nn : Byte) : Statement (.addByte x nn) := fieldC_assembleXNN _ _ _
theorem ldReg (x : RegIdx) (y : RegIdx) : Statement (.ldReg x y) := fieldC_assemble _ _ _ _
theorem orReg (x : RegIdx) (y : RegIdx) : Statement (.orReg x y) := fieldC_assemble _ _ _ _
theorem andReg (x : RegIdx) (y : RegIdx) : Statement (.andReg x y) := fieldC_assemble _ _ _ _
theorem xorReg (x : RegIdx) (y : RegIdx) : Statement (.xorReg x y) := fieldC_assemble _ _ _ _
theorem addReg (x : RegIdx) (y : RegIdx) : Statement (.addReg x y) := fieldC_assemble _ _ _ _
theorem subReg (x : RegIdx) (y : RegIdx) : Statement (.subReg x y) := fieldC_assemble _ _ _ _
theorem shr (x : RegIdx) (y : RegIdx) : Statement (.shr x y) := fieldC_assemble _ _ _ _
theorem subn (x : RegIdx) (y : RegIdx) : Statement (.subn x y) := fieldC_assemble _ _ _ _
theorem shl (x : RegIdx) (y : RegIdx) : Statement (.shl x y) := fieldC_assemble _ _ _ _
theorem sneReg (x : RegIdx) (y : RegIdx) (n : BitVec 4) : Statement (.sneReg x y n) := fieldC_assemble _ _ _ _
theorem ldI (nnn : BitVec 12) : Statement (.ldI nnn) := fieldC_assembleNNN _ _
theorem jpV0 (nnn : BitVec 12) : Statement (.jpV0 nnn) := fieldC_assembleNNN _ _
theorem rnd (x : RegIdx) (nn : Byte) : Statement (.rnd x nn) := fieldC_assembleXNN _ _ _
theorem drw (x : RegIdx) (y : RegIdx) (n : Fin 16) : Statement (.drw x y n) := fieldC_assemble _ _ _ _
theorem skp (x : RegIdx) : Statement (.skp x) := fieldC_assembleXNN _ _ _
theorem sknp (x : RegIdx) : Statement (.sknp x) := fieldC_assembleXNN _ _ _
theorem ldVxDt (x : RegIdx) : Statement (.ldVxDt x) := fieldC_assembleXNN _ _ _
theorem ldVxK (x : RegIdx) : Statement (.ldVxK x) := fieldC_assembleXNN _ _ _
theorem ldDtVx (x : RegIdx) : Statement (.ldDtVx x) := fieldC_assembleXNN _ _ _
theorem ldStVx (x : RegIdx) : Statement (.ldStVx x) := fieldC_assembleXNN _ _ _
theorem addI (x : RegIdx) : Statement (.addI x) := fieldC_assembleXNN _ _ _
theorem ldF (x : RegIdx) : Statement (.ldF x) := fieldC_assembleXNN _ _ _
theorem ldB (x : RegIdx) : Statement (.ldB x) := fieldC_assembleXNN _ _ _
theorem store (x : RegIdx) : Statement (.store x) := fieldC_assembleXNN _ _ _
theorem load (x : RegIdx) : Statement (.load x) := fieldC_assembleXNN _ _ _

end Sys2Proof.Laws.EncodeClass
end

