-- ==== Sys2Proof/Laws/Step.lean ====
section
/-! SUPPORT. What a step can be: one lemma per kind of event, and for a Cycle one per way it can go. -/

set_option Elab.async false

namespace Sys2Proof.Machine

theorem step_of_empty {s : State} (h : s.inbox = []) : step s = runCycle none s := by
  simp [step, nextEvent, h]

theorem step_of_cons {s : State} {e : Event} {es : List Event} (h : s.inbox = e :: es) :
    step s = handleEvent e (s.setInbox es) := by
  simp [step, nextEvent, h]

theorem runCycle_running {s : State} (h : s.rs = .running) (r : Option Byte) :
    runCycle r s = fetchDecodeExecute (s.beginCycle r) := by
  simp [runCycle, h]

theorem runCycle_not_running {s : State} (h : s.rs ≠ .running) (r : Option Byte) : runCycle r s = .next s := by
  unfold runCycle
  split <;> simp_all

/-- The beginning of a Cycle changes the source of its random byte only. -/
theorem State.beginCycle_eq (s : State) (r : Option Byte) :
    s.beginCycle r = s.setDraw r (match r with | some _ => s.draws | none => s.draws + 1) := by
  cases r <;> rfl

/-- Every way fetch, decode and execute can go (30_encoding.md R90). -/
theorem fetchDecodeExecute_cases (s : State) :
    (∃ e, fetch16 s.mem s.pc.toNat = .error e ∧ fetchDecodeExecute s = .next (fatalPath s s.pc none e)) ∨
    (∃ w i, fetch16 s.mem s.pc.toNat = .ok w ∧ decode w = .ok i ∧
      fetchDecodeExecute s = exec i (s.setPc (s.pc + 2))) ∨
    (∃ w e, fetch16 s.mem s.pc.toNat = .ok w ∧ decode w = .error e ∧
      fetchDecodeExecute s = .next (s.setPc (s.pc + 2))) := by
  unfold fetchDecodeExecute
  cases hf : fetch16 s.mem s.pc.toNat with
  | error e => exact .inl ⟨e, rfl, rfl⟩
  | ok w =>
    cases hd : decode w with
    | ok i => exact .inr (.inl ⟨w, i, rfl, hd, by simp [hd]⟩)
    | error e => exact .inr (.inr ⟨w, e, rfl, hd, by simp [hd]; rfl⟩)

/-- Only an Init stops the machine, and only with ROM_TOO_LARGE (60_exceptions.md R225). -/
theorem runInit_eq (rom : List Byte) (s : State) :
    runInit rom s =
      if rom.length ≤ Config.romMax then
        .next (((State.reset.setMem (Memory.place [] Config.romBase rom)).setInbox s.inbox).setDraw none s.draws)
      else .fault .romTooLarge := by
  unfold runInit initState
  split <;> rename_i h <;> split at h <;> simp_all

theorem runFor_succ (n : Nat) {s t : State} (h : step s = .next t) : runFor (n + 1) s = runFor n t := by
  simp only [runFor, h]

/-- Construction with the empty ROM is the reset state (70_reset_and_hazards.md R271). -/
theorem initState_empty : initState [] = some State.reset := rfl

end Sys2Proof.Machine
end

