-- ==== Sys2Proof/Tests/Slice0.lean ====
section
/-! SUPPORT. Tests. Expected results come from spec/95_test_vectors.md (vector names in the comments) and from the rules'
own examples. A witness shows that the hypotheses of an obligation can be met, at the ends of their ranges. -/

set_option Elab.async false

namespace Sys2Proof.Tests

open Sys2Proof.Machine

/-- The answer is a next state for which `p` holds. -/
def nextWith (o : Answer) (p : State → Bool) : Bool :=
  match o with
  | .next t => p t
  | .fault _ => false
  | .refused _ => false

/-- Whether bytes are no instruction. -/
def rejected (r : Except DecodeReject Instr) : Bool :=
  match r with
  | .ok _ => false
  | .error _ => true

/-- The instruction a word decodes to. -/
def decoded (strict : Bool) (w : Word) : Option Instr := (decodeUnder strict w).toOption

/-- The reset state with the word `w` at `a`, PC there, and one Cycle event to come. -/
def ready (a w : Nat) (r : Byte := 0) : State :=
  (({ State.reset with pc := BitVec.ofNat 16 a } : State).withFetchWord 16 w).setInbox [.cycle r]

/-- V[0], V[1], ... from a list. -/
def withV (s : State) (bs : List Byte) : State := s.setVFrom 0 bs

/-- I set, and bytes placed there. -/
def withI (s : State) (a : Nat) (bs : List Byte := []) : State :=
  (s.setMem (Memory.place s.mem a bs)).setI (BitVec.ofNat 16 a)

/-- Keys pressed. -/
def withKeys (s : State) (ks : List RegIdx) : State := s.setKeypad (ks.foldl (fun k i => k.set i.val true) s.keys)

/-- The depth of the stack. -/
def withSp (s : State) (n : Fin 17) : State := s.setStack s.stack n

/-- The lit pixels among a list. -/
def lit (s : State) (ps : List (Fin 64 × Fin 32)) : Bool := ps.all (fun p => Display.pixel s.display p.1 p.2)

/-- How many pixels are lit. -/
def litCount (s : State) : Nat := (s.display.toList.map (fun c => c.toList.foldr (fun b n => cond b (n + 1) n) 0)).sum

/-- FR has this kind, this address and the word `w` of an instruction at `a`, and RS is QUIT with PC at `a`. -/
def stopped (t : State) (k : FatalKind) (a w addr : Nat) : Bool :=
  t.rs == .quit && t.pc.toNat == a &&
  t.fr == { valid := true, kind := k, pc := BitVec.ofNat 16 a, opcode := BitVec.ofNat 16 w, opcodeValid := true,
            addr := BitVec.ofNat 17 addr }

/-! ## Well-formedness -/

/-- Each check of WellFormed refuses an ill-formed term (R83, STRICT_DECODE = true). -/
theorem test_wellFormed_refuses :
    Instr.wellFormedUnder true (.cls 5) = false ∧ Instr.wellFormedUnder true (.ret 1) = false ∧
    Instr.wellFormedUnder true (.seReg 1 2 3) = false ∧ Instr.wellFormedUnder true (.sneReg 1 2 0xF) = false := by decide

theorem test_wellFormed_admits :
    Instr.wellFormedUnder true (.cls 0) = true ∧ Instr.wellFormedUnder true (.sneReg 1 2 0) = true ∧
    Instr.wellFormed (.cls 5) = true ∧ Instr.wellFormed (.seReg 1 2 3) = true := by decide

/-! ## Decoding: a word of every row of R84, its bits written out -/

theorem test_decode_class_0 :
    decoded false 0b0000_0000_1110_0000 = some (.cls 0) ∧ decoded false 0b0000_0000_1110_1110 = some (.ret 0) := by decide

theorem test_decode_classes_1_to_4 :
    decoded false 0b0001_1010_1011_1100 = some (.jp 0xABC) ∧ decoded false 0b0010_0011_0000_0000 = some (.call 0x300) ∧
    decoded false 0b0011_0011_0001_0000 = some (.seByte 3 0x10) ∧
    decoded false 0b0100_0011_0001_0001 = some (.sneByte 3 0x11) := by decide

theorem test_decode_classes_5_to_7_and_9 :
    decoded false 0b0101_0001_0010_0000 = some (.seReg 1 2 0) ∧ decoded false 0b0110_1010_0000_0101 = some (.ldByte 10 5) ∧
    decoded false 0b0111_1111_0000_0001 = some (.addByte 15 1) ∧
    decoded false 0b1001_0001_0010_0000 = some (.sneReg 1 2 0) := by decide

theorem test_decode_class_8 :
    decoded false 0b1000_0001_0010_0000 = some (.ldReg 1 2) ∧ decoded false 0b1000_0001_0010_0001 = some (.orReg 1 2) ∧
    decoded false 0b1000_0001_0010_0010 = some (.andReg 1 2) ∧ decoded false 0b1000_0001_0010_0011 = some (.xorReg 1 2) ∧
    decoded false 0b1000_0001_0010_0100 = some (.addReg 1 2) ∧ decoded false 0b1000_0001_0010_0101 = some (.subReg 1 2) ∧
    decoded false 0b1000_0001_0010_0110 = some (.shr 1 2) ∧ decoded false 0b1000_0001_0010_0111 = some (.subn 1 2) ∧
    decoded false 0b1000_0001_0010_1110 = some (.shl 1 2) := by decide

theorem test_decode_classes_A_to_D :
    decoded false 0b1010_0001_0010_0011 = some (.ldI 0x123) ∧ decoded false 0b1011_0101_0000_0000 = some (.jpV0 0x500) ∧
    decoded false 0b1100_0011_0011_1100 = some (.rnd 3 0x3C) ∧
    decoded false 0b1101_0001_0010_0011 = some (.drw 1 2 3) := by decide

theorem test_decode_class_E :
    decoded false 0b1110_0001_1001_1110 = some (.skp 1) ∧ decoded false 0b1110_0001_1010_0001 = some (.sknp 1) := by decide

theorem test_decode_class_F :
    decoded false 0b1111_0001_0000_0111 = some (.ldVxDt 1) ∧ decoded false 0b1111_0010_0000_1010 = some (.ldVxK 2) ∧
    decoded false 0b1111_0000_0001_0101 = some (.ldDtVx 0) ∧ decoded false 0b1111_0000_0001_1000 = some (.ldStVx 0) ∧
    decoded false 0b1111_0010_0001_1110 = some (.addI 2) ∧ decoded false 0b1111_0011_0010_1001 = some (.ldF 3) ∧
    decoded false 0b1111_0000_0011_0011 = some (.ldB 0) ∧ decoded false 0b1111_0010_0101_0101 = some (.store 2) ∧
    decoded false 0b1111_0010_0110_0101 = some (.load 2) := by decide

/-- DEC-3, DEC-6, DEC-7, and the neighbours of the sub-codes. -/
theorem test_decode_rejects :
    [0x0000, 0x00E1, 0x0ABC, 0x8AB8, 0x8ABD, 0x8ABF, 0xE09F, 0xE1A0, 0xF0FF, 0xF030, 0xF075].all
      (fun w => rejected (decode w)) = true := by decide

/-- DEC-2, DEC-5: what STRICT_DECODE changes. -/
theorem test_decode_strict :
    decoded false 0x01E0 = some (.cls 1) ∧ decoded false 0x5AB3 = some (.seReg 0xA 0xB 3) ∧
    [0x01E0, 0x0FEE, 0x5AB3, 0x9AB1].all (fun w => rejected (decodeUnder true w)) = true ∧
    decoded true 0x00E0 = some (.cls 0) ∧ decoded true 0x9AB0 = some (.sneReg 0xA 0xB 0) := by decide

/-- DEC-1. -/
theorem test_fields :
    fieldC 0xD123 = 0xD ∧ fieldX 0xD123 = 1 ∧ fieldY 0xD123 = 2 ∧ fieldN 0xD123 = 3 ∧ fieldNN 0xD123 = 0x23 ∧
    fieldNNN 0xD123 = 0x123 := by decide

/-- One word is two bytes, the high one first (R54); fewer are rejected by name. -/
theorem test_decode_bytes :
    decodeBytes [0x6A, 0x05, 0x12, 0x00] = .ok (.ldByte 10 5, [0x12, 0x00]) ∧
    decodeBytes [0x6A] = .error .truncated ∧ decodeTableWord 16 0x6A05 = some (.ldByte 10 5) ∧
    decodeTableWord 16 0x8AB8 = none := by decide

/-! ## Fetch and Cycle -/

/-- FET-1. -/
theorem test_fetch_last_word : nextWith (step (ready 0xFFE 0x1200)) (fun t => t.pc == 0x200) = true := by decide

/-- FET-2, FET-3, CF-7, CF-12. -/
theorem test_fetch_beyond_memory :
    [0xFFF, 0x1000, 0x10FE, 0x1002].map (fun a => nextWith
        (step { State.reset with pc := BitVec.ofNat 16 a, inbox := [.cycle 0] })
        (fun t => t.fr.kind == .memOobFetch && t.fr.pc.toNat == a && !t.fr.opcodeValid && t.fr.opcode == 0 &&
          t.fr.addr.toNat == max a 0x1000 && t.rs == .quit && t.pc.toNat == a)) = [true, true, true, true] := by decide

/-- FET-4: an odd PC. -/
theorem test_fetch_odd :
    nextWith (step (ready 0x201 0x6A07)) (fun t => t.getV 10 == 7 && t.pc == 0x203) = true := by decide

/-- DEC-3, DEC-4. -/
theorem test_unknown_opcode :
    nextWith (step (ready 0x200 0x0000)) (fun t => t.pc == 0x202 && t.rs == .running && !t.fr.valid) = true ∧
    nextWith (unknownOpcodeUnder .fatal 0x0000 { State.reset with pc := 0x202 })
      (fun t => stopped t .unknownOpcode 0x200 0x0000 0) = true := by decide

/-- DEC-3: the trace of an unknown opcode (R266). -/
theorem test_trace_unknown_opcode :
    nextWith (step (ready 0x200 0x0000))
      (fun t => stepTrace false (ready 0x200 0x0000) t == [.unknownOpcode 0x200 0x0000] &&
        stepTrace true (ready 0x200 0x6A05) t == [.cycle 0x200 0x6A05]) = true := by decide

/-! ## Display -/

/-- DSP-1. -/
theorem test_cls :
    nextWith (step ((ready 0x200 0x00E0).setDisplay (Display.flip Display.blank 5 6)))
      (fun t => litCount t == 0 && t.pc == 0x202) = true := by decide +kernel

/-- DSP-2, DSP-3: the draw wraps in x and in y. -/
theorem test_drw_wraps :
    nextWith (step (withV (withI (ready 0x200 0xD011) 0x300 [0xC0]) [63, 0]))
      (fun t => lit t [(63, 0), (0, 0)] && litCount t == 2 && t.getV vf == 0) = true ∧
    nextWith (step (withV (withI (ready 0x200 0xD012) 0x300 [0x80, 0x80]) [0, 31]))
      (fun t => lit t [(0, 31), (0, 0)] && litCount t == 2 && t.getV vf == 0) = true := by decide +kernel

/-- DSP-10 and DSP-8: collision, and VF as a coordinate. -/
theorem test_drw_collision :
    nextWith (step ((withV (withI (ready 0x200 0xD011) 0x300 [0x60]) [0, 0]).setDisplay (Display.flip Display.blank 1 0)))
      (fun t => lit t [(2, 0)] && litCount t == 1 && t.getV vf == 1) = true ∧
    nextWith (step ((withI (ready 0x200 0xDF11) 0x300 [0x80]).setV vf 5))
      (fun t => lit t [(5, 0)] && litCount t == 1 && t.getV vf == 0) = true := by decide +kernel

/-- DSP-6, DSP-7. -/
theorem test_drw_rows :
    nextWith (step ((withI (ready 0x200 0xD010) 0xFFFF).setV vf 0x55))
      (fun t => litCount t == 0 && t.getV vf == 0 && t.pc == 0x202 && !t.fr.valid) = true ∧
    nextWith (step ((withI (ready 0x200 0xD013) 0xFFE).setV vf 0x55))
      (fun t => stopped t .memOobRead 0x200 0xD013 0x1000 && t.getV vf == 0x55 && litCount t == 0) = true := by decide +kernel

/-- DSP-5: under CLIP the second column is dropped. -/
theorem test_drw_clips :
    (drawSprite .clip 63 0 [0xC0] Display.blank).1 = Display.flip Display.blank 63 0 := by decide +kernel

/-- DSP-11: the glyph of 0 has 14 pixels. -/
theorem test_drw_font :
    nextWith (step (ready 0x200 0xD005)) (fun t => litCount t == 14 &&
      lit t [(0, 0), (3, 0), (0, 1), (3, 1), (0, 4), (1, 4), (2, 4), (3, 4)] && t.getV vf == 0) = true := by decide +kernel

/-! ## Control flow and stack -/

/-- CF-13, CF-1. -/
theorem test_ret :
    nextWith (step ((ready 0x300 0x00EE).setStack ((State.reset.stack.set 0 0x204).set 1 0x3A2) 2))
      (fun t => t.pc == 0x3A2 && t.sp == 1) = true ∧
    nextWith (step (ready 0x300 0x00EE)) (fun t => stopped t .stackUnderflow 0x300 0x00EE 0 && t.sp == 0) = true := by decide

/-- CF-3, CF-2. -/
theorem test_call :
    nextWith (step (withSp (ready 0x300 0x2400) 15))
      (fun t => t.stack[15] == 0x302 && t.sp == 16 && t.pc == 0x400) = true ∧
    nextWith (step (withSp (ready 0x300 0x2400) 16))
      (fun t => stopped t .stackOverflow 0x300 0x2400 0 && t.sp == 16 && t.stack[15] == 0) = true := by decide

/-- CF-4, CF-5. -/
theorem test_jp :
    nextWith (step (ready 0x200 0x1ABC)) (fun t => t.pc == 0xABC) = true ∧
    nextWith (step (ready 0x200 0x1203)) (fun t => t.pc == 0x203) = true := by decide

/-- CF-7, CF-8. -/
theorem test_jpV0 :
    nextWith (step (withV (ready 0x200 0xBFFF) [0xFF])) (fun t => t.pc == 0x10FE) = true ∧
    nextWith (step (withV (ready 0x200 0xB500) [2, 0, 0, 0, 0, 0x99])) (fun t => t.pc == 0x502) = true := by decide

/-- CF-9. -/
theorem test_byte_skips :
    [0x3310, 0x3311, 0x4310, 0x4311].map (fun w => nextWith (step ((ready 0x200 w).setV 3 0x10)) (fun t => t.pc == 0x204))
      = [true, false, false, true] := by decide

/-- CF-10, CF-11 (5110 and 9110 have X = Y), DEC-5. -/
theorem test_register_skips :
    [0x5120, 0x9120, 0x5110, 0x9110, 0x5123, 0x5130].map
      (fun w => nextWith (step (withV (ready 0x200 w) [0, 7, 7, 8])) (fun t => t.pc == 0x204))
      = [true, false, true, false, true, false] := by decide

/-! ## Register load, arithmetic, logic, random -/

/-- One ALU vector: the word, V1 and V2 before, V1 and VF after; VF is 0x55 before. -/
def alu (w : Nat) (a b r f : Byte) : Bool :=
  nextWith (step ((withV (ready 0x200 w) [0, a, b]).setV vf 0x55))
    (fun t => t.getV 1 == r && t.getV vf == f && t.getV 2 == b && t.pc == 0x202)

/-- ALU-2, ALU-4, ALU-5. -/
theorem test_addReg :
    alu 0x8124 0xFF 0x01 0x00 1 = true ∧ alu 0x8124 0x7F 0x80 0xFF 0 = true ∧ alu 0x8124 0xFF 0xFF 0xFE 1 = true := by
  decide

/-- ALU-6, ALU-8, ALU-10. -/
theorem test_subReg :
    alu 0x8125 5 7 0xFE 0 = true ∧ alu 0x8125 5 5 0 1 = true ∧ alu 0x8125 0xFF 0 0xFF 1 = true := by decide

/-- ALU-11, ALU-12, ALU-13. -/
theorem test_subn : alu 0x8127 5 7 2 1 = true ∧ alu 0x8127 7 5 0xFE 0 = true ∧ alu 0x8127 5 5 0 1 = true := by decide

/-- ALU-15, ALU-16. -/
theorem test_shr : alu 0x8126 0x80 3 0x40 0 = true ∧ alu 0x8126 0xFF 2 0x7F 1 = true := by decide

/-- ALU-18, ALU-19. -/
theorem test_shl : alu 0x812E 0x80 1 0x00 1 = true ∧ alu 0x812E 0x01 0xC0 0x02 0 = true := by decide

/-- ALU-23, ALU-25, ALU-26, ALU-28: VF is not written. -/
theorem test_logic :
    alu 0x8121 0x0F 0xF0 0xFF 0x55 = true ∧ alu 0x8122 0x3C 0x0F 0x0C 0x55 = true ∧
    alu 0x8123 0x3C 0x0F 0x33 0x55 = true ∧ alu 0x8120 0x00 0x33 0x33 0x55 = true := by decide

/-- ALU-21, ALU-22, ALU-24: the other values of SHIFT_SOURCE and LOGIC_VF_RESET. -/
theorem test_alu_parameters :
    (shrUnder .vy 1 2 (withV State.reset [0, 0, 3])).getV 1 = 1 ∧
    (shrUnder .vy 1 2 (withV State.reset [0, 0, 3])).getV vf = 1 ∧
    (shlUnder .vy 1 2 (withV State.reset [0, 0, 0xC0])).getV 1 = 0x80 ∧
    (shlUnder .vy 1 2 (withV State.reset [0, 0, 0xC0])).getV vf = 1 ∧
    (logicUnder true (fun a b => a ||| b) 1 2 ((withV State.reset [0, 0x0F, 0xF0]).setV vf 1)).getV vf = 0 := by decide

/-- ALU-29, ALU-30, ALU-31, ALU-34: X = F. -/
theorem test_alu_destination_vf :
    [(0x8FF4, 0x80, 1), (0x8FF5, 0x37, 1), (0x8FF6, 0x02, 0), (0x7F01, 0xFF, 0)].all
      (fun (w, a, r) => nextWith (step ((ready 0x200 w).setV vf (BitVec.ofNat 8 a)))
        (fun t => t.getV vf == BitVec.ofNat 8 r)) = true := by decide

/-- ALU-32: Y = F. -/
theorem test_addReg_source_vf :
    nextWith (step ((withV (ready 0x200 0x81F4) [0, 0x10]).setV vf 3))
      (fun t => t.getV 1 == 0x13 && t.getV vf == 0) = true := by decide

/-- ALU-33, ALU-35. -/
theorem test_immediates :
    nextWith (step ((withV (ready 0x200 0x7001) [0xFF]).setV vf 0x55))
      (fun t => t.getV 0 == 0 && t.getV vf == 0x55) = true ∧
    nextWith (step (ready 0x200 0x6FFF)) (fun t => t.getV vf == 0xFF) = true := by decide

/-- ALU-36. -/
theorem test_rnd :
    nextWith (step (ready 0x200 0xC33C 0xFF)) (fun t => t.getV 3 == 0x3C) = true ∧
    nextWith (step (ready 0x200 0xC30F 0xA5)) (fun t => t.getV 3 == 0x05) = true := by decide

/-! ## Index and memory -/

/-- MEM-1, MEM-3, MEM-4. -/
theorem test_index :
    nextWith (step (ready 0x200 0xA123)) (fun t => t.i == 0x123) = true ∧
    nextWith (step (withV (withI (ready 0x200 0xF21E) 0xFFFF) [0, 0, 1])) (fun t => t.i == 0) = true ∧
    nextWith (step (withV (withI (ready 0x200 0xF21E) 0x0FFF) [0, 0, 1]))
      (fun t => t.i == 0x1000 && !t.fr.valid) = true := by decide

/-- MEM-6. -/
theorem test_ldF : nextWith (step (withV (ready 0x200 0xF329) [0, 0, 0, 0x1F])) (fun t => t.i == 0x4B) = true := by decide

/-- L1-6, MEM-11. -/
theorem test_ldB :
    nextWith (step (withV (withI (ready 0x200 0xF033) 0x300) [234]))
      (fun t => [0x300, 0x301, 0x302].map (Memory.read t.mem) == [2, 3, 4] && t.i == 0x300) = true ∧
    nextWith (step (withV (withI (ready 0x200 0xF233) 0x04E) [0, 0, 123]))
      (fun t => stopped t .fontWrite 0x200 0xF233 0x04E && Memory.read t.mem 0x050 == 0) = true := by decide

/-- MEM-8, MEM-9, MEM-10. -/
theorem test_ldB_forbidden :
    nextWith (step (withI (ready 0x200 0xF033) 0xFFE)) (fun t => stopped t .memOobWrite 0x200 0xF033 0x1000) = true ∧
    nextWith (step (withI (ready 0x200 0xF033) 0x004)) (fun t => stopped t .fontWrite 0x200 0xF033 0x004) = true ∧
    (storeBcdUnder .ignore 0 (withI State.reset 0x004)).toOption = some (withI State.reset 0x004) := by decide

/-- MEM-12, MEM-14. -/
theorem test_store :
    nextWith (step (withV (withI (ready 0x200 0xF255) 0x050) [1, 2, 3]))
      (fun t => [0x050, 0x051, 0x052, 0x053].map (Memory.read t.mem) == [1, 2, 3, 0] && t.i == 0x050) = true ∧
    nextWith (step (withV (withI (ready 0x200 0xFF55) 0xFF1) [7]))
      (fun t => stopped t .memOobWrite 0x200 0xFF55 0x1000 && Memory.read t.mem 0xFF1 == 0) = true := by decide

/-- MEM-15, MEM-18. -/
theorem test_load :
    nextWith (step (withI (ready 0x200 0xF265) 0x300 [2, 3, 4, 5]))
      (fun t => [0, 1, 2, 3].map t.getV == [2, 3, 4, 0] && t.i == 0x300) = true ∧
    nextWith (step (withI (ready 0x200 0xF065) 0xFFF0))
      (fun t => stopped t .memOobRead 0x200 0xF065 0xFFF0) = true := by decide

/-- MEM-17, MEM-19. -/
theorem test_load_font_and_vf :
    nextWith (step (withI (ready 0x200 0xF065) 0x000)) (fun t => t.getV 0 == 0xF0) = true ∧
    nextWith (step (withI ((ready 0x200 0xFF65).setMem (Memory.place (ready 0x200 0xFF65).mem 0x30F [0x77])) 0x300))
      (fun t => t.getV vf == 0x77) = true := by decide

/-- MEM-16. -/
theorem test_load_increment :
    ((loadRegsUnder .xPlusOne 2 (withI State.reset 0x300)).toOption.map State.i) = some 0x303 ∧
    ((loadRegsUnder .x 2 (withI State.reset 0x300)).toOption.map State.i) = some 0x302 := by decide

/-! ## Keypad and timers -/

/-- KT-1, KT-2, KT-4, KT-3. -/
theorem test_key_skips :
    nextWith (step (withV (withKeys (ready 0x200 0xE19E) [5]) [0, 5])) (fun t => t.pc == 0x204) = true ∧
    nextWith (step (withV (withKeys (ready 0x200 0xE19E) [5]) [0, 0x15])) (fun t => t.pc == 0x204) = true ∧
    nextWith (step (withV (withKeys (ready 0x200 0xE1A1) [5]) [0, 5])) (fun t => t.pc == 0x202) = true ∧
    nextWith (step (ready 0x200 0xE1A1)) (fun t => t.pc == 0x204) = true := by decide

/-- KT-5, KT-6. -/
theorem test_ldVxK :
    nextWith (step (withV (ready 0x300 0xF20A) [0, 0, 9])) (fun t => t.pc == 0x300 && t.getV 2 == 9) = true ∧
    nextWith (step (withKeys (ready 0x300 0xF20A) [9, 3])) (fun t => t.pc == 0x302 && t.getV 2 == 3) = true := by decide

/-- KT-8, KT-9, KT-10. -/
theorem test_timer_moves :
    nextWith (step ((ready 0x200 0xF107).setDt 0x3C)) (fun t => t.getV 1 == 0x3C) = true ∧
    nextWith (step (withV (ready 0x200 0xF015) [0x3C])) (fun t => t.dt == 0x3C && t.st == 0) = true ∧
    nextWith (step (withV (ready 0x200 0xF018) [0x02])) (fun t => t.st == 2 && t.soundOn && t.dt == 0) = true := by decide

/-- KT-11, KT-12, KT-13, KT-14. -/
theorem test_tick :
    nextWith (step ((State.reset.setSt 1).setInbox [.tick])) (fun t => t.dt == 0 && t.st == 0 && !t.soundOn) = true ∧
    nextWith (step ((State.reset.setDt 5).setInbox [.tick])) (fun t => t.dt == 4 && t.st == 0) = true ∧
    nextWith (step (((State.reset.setDt 5).setRs .paused).setInbox [.tick])) (fun t => t.dt == 4) = true ∧
    nextWith (step (((State.reset.setDt 5).setRs .quit).setInbox [.tick])) (fun t => t.dt == 5) = true := by decide

/-! ## Events -/

/-- RS-1, RS-2, RS-3. -/
theorem test_run_state :
    nextWith (step (State.reset.setInbox [.pauseToggle])) (fun t => t.rs == .paused) = true ∧
    nextWith (step ((State.reset.setRs .paused).setInbox [.pauseToggle])) (fun t => t.rs == .running) = true ∧
    nextWith (step ((State.reset.setRs .paused).setInbox [.quit])) (fun t => t.rs == .quit && !t.fr.valid) = true := by decide

/-- RS-5. -/
theorem test_setKeys :
    nextWith (step ((State.reset.setRs .paused).setInbox [.setKeys (withKeys State.reset [2]).keys]))
      (fun t => t.keys[2] && !t.keys[3]) = true := by decide

/-- A small Init: the ROM's bytes at 0x200, the font below, everything else cleared (R270). -/
theorem test_init :
    nextWith (step ((withV (ready 0x300 0x1200) [1, 2]).setInbox [.init [0x6A, 0x05, 0x12, 0x00], .tick]))
      (fun t => [0x1FF, 0x200, 0x201, 0x202, 0x203, 0x300].map (Memory.read t.mem) == [0, 0x6A, 5, 0x12, 0, 0] &&
        Memory.read t.mem 0x4F == 0x80 && t.getV 1 == 0 && t.pc == 0x200 && t.inbox == [.tick]) = true := by decide

/-- The codes of FR.kind in DEC-4 and CF-2 (R220). -/
theorem test_kind_code : FatalKind.unknownOpcode.code = 7 ∧ FatalKind.stackOverflow.code = 1 := by decide

/-- The outputs of a state with one pixel on (R246). -/
theorem test_outputs :
    ((State.reset.setDisplay (Display.flip Display.blank 3 2)).displayBit 131) = true ∧
    ((State.reset.setDisplay (Display.flip Display.blank 3 2)).displayBit 130) = false := by decide

/-- One frame's events in the order of R231. -/
theorem test_frame :
    referenceFrame none [.pauseToggle] [7, 8] 1 = [.pauseToggle, .cycle 7, .cycle 8, .tick] := by decide

/-! ## Witnesses: the hypotheses of the obligations, met -/

theorem witness_DecodeOfEncode :
    Instr.wellFormedUnder true (.cls 0) = true ∧ Instr.wellFormedUnder false (.cls 15) = true ∧
    Instr.wellFormedUnder true (.drw 15 0 15) = true := by decide

theorem witness_EncodeOfDecode :
    decodeUnder false 0x0FEE = .ok (.ret 0xF) ∧ decodeUnder true 0xFF65 = .ok (.load 15) := by decide

theorem witness_StepRuns :
    (ready 0xFFE 0x6A07).rs = .running ∧ (ready 0xFFE 0x6A07).pc.toNat + 1 < Config.memSize ∧
    decode (wordOfBytes (Memory.read (ready 0xFFE 0x6A07).mem 0xFFE) (Memory.read (ready 0xFFE 0x6A07).mem 0xFFF)) =
      .ok (.ldByte 10 7) ∧
    (ready 0xFFE 0x6A07).inbox = .cycle 0 :: [] ∧ ((ready 0xFFE 0x6A07).setInbox []).inbox = [] := by decide

/-- PlacedWordIsTheNextInstruction: the last PC in memory, and the first and the highest one outside. -/
theorem witness_PlacedWord :
    Memory.wf (withI State.reset 0xFFE [1, 2]).mem = true ∧ Instr.wellFormed (.jp 0x200) = true ∧
    ((withI State.reset 0xFFE [1, 2]).setPc 0xFFE).pc.toNat + 1 < Config.memSize ∧
    Config.memSize ≤ ((withI State.reset 0xFFE [1, 2]).setPc 0xFFF).pc.toNat + 1 ∧
    Config.memSize ≤ ((withI State.reset 0xFFE [1, 2]).setPc 0xFFFF).pc.toNat + 1 := by decide

/-- A word placed with PC outside memory stands at 0x200 and runs from there (log 4). -/
theorem test_place_outside :
    nextWith (step ((State.reset.setPc 0x1000).withFetchWord 16 0x6A07))
      (fun t => t.getV 10 == 7 && t.pc == 0x202 && Memory.read t.mem 0x200 == 0x6A && Memory.read t.mem 0x201 == 0x07)
      = true := by decide

theorem witness_FetchBeyondMemory :
    ([0xFFF, 0x1000, 0xFFFF] : List Word).all (fun a =>
      decide (Config.memSize ≤ (({ State.reset with pc := a, inbox := [.cycle 1] } : State)).pc.toNat + 1)) = true ∧
    State.reset.rs = .running := by decide

theorem witness_UnknownOpcode :
    (ready 0x200 0x8AB8).rs = .running ∧ (ready 0x200 0x8AB8).inbox = .cycle 0 :: [] ∧
    (fetch16 (ready 0x200 0x8AB8).mem (ready 0x200 0x8AB8).pc.toNat).toOption = some 0x8AB8 ∧
    decode 0x8AB8 = .error (.unknownClass8 0x8AB8) := by decide

/-- CycleOutsideRunningChangesNothing: PAUSED, and QUIT. -/
theorem witness_CycleOutsideRunning :
    ((ready 0x200 0x6A05).setRs .paused).rs ≠ .running ∧ ((ready 0x200 0x6A05).setRs .quit).rs ≠ .running ∧
    ((ready 0x200 0x6A05).setRs .paused).inbox = .cycle 0 :: [] := by decide

/-- The statements about one event, in each run state they name; two Ticks in a row. -/
theorem witness_events :
    (State.reset.setInbox [.tick, .tick]).inbox = .tick :: [.tick] ∧ (State.reset.setInbox [.tick]).rs ≠ .quit ∧
    ((State.reset.setInbox [.tick]).setRs .quit).rs = .quit ∧
    (State.reset.setInbox [.tick, .tick]).inbox = List.replicate 2 .tick ∧
    (State.reset.setInbox [.setKeys State.reset.keys]).inbox = .setKeys State.reset.keys :: [] ∧
    (State.reset.setInbox [.setKeys State.reset.keys]).rs ≠ .quit ∧
    ((State.reset.setInbox [.setKeys State.reset.keys]).setRs .quit).rs = .quit ∧
    (State.reset.setInbox [.pauseToggle]).rs = .running ∧ ((State.reset.setInbox [.pauseToggle]).setRs .paused).rs = .paused ∧
    (State.reset.setInbox [.pauseToggle]).inbox = .pauseToggle :: [] ∧ (State.reset.setInbox [.quit]).inbox = .quit :: [] := by
  decide

/-- InitLoadsFontAndRom and InitClearsTheRest: an empty image, the longest one (RS-7), and one byte more (RS-6). -/
theorem witness_Init :
    (State.reset.setInbox [.init []]).inbox = .init [] :: [] ∧ ([] : List Byte).length ≤ 3584 ∧
    (List.replicate 3584 (1 : Byte)).length ≤ 3584 ∧ 3584 < (List.replicate 3585 (1 : Byte)).length :=
  ⟨rfl, by decide, Nat.le_of_eq List.length_replicate, by rw [List.length_replicate]; decide⟩

/-- RS-6. -/
theorem test_rom_too_large : step (State.reset.setInbox [.init (List.replicate 3585 0)]) = .fault .romTooLarge := by
  rw [step_of_cons rfl, handleEvent, runInit_eq, if_neg (by rw [List.length_replicate, Config.romMax]; decide)]

/-- DRW in memory: no row at the last I, the last byte of memory; and the edge cases of the fatal one. -/
theorem witness_Drw :
    (((0 : Fin 16).val = 0) ∨ (withI State.reset 0xFFFF).i.toNat + (0 : Fin 16).val ≤ 0x1000) ∧
    (withI State.reset 0xFFF).i.toNat + (1 : Fin 16).val ≤ 0x1000 ∧ (0 : Nat) < (1 : Fin 16).val ∧
    0x1000 < (withI State.reset 0x1000).i.toNat + (1 : Fin 16).val ∧
    0x1000 < (withI State.reset 0xFFF).i.toNat + (2 : Fin 16).val := by decide

/-- A covered pixel, an uncovered one, and a collision, at the wrapping corner; under CLIP the covered corner pixel. -/
theorem witness_Covers :
    Covers .wrap (withI State.reset 0x300 [0xC0]).mem 0x300 63 31 1 0 31 ∧
    Covers .clip (withI State.reset 0x300 [0xC0]).mem 0x300 63 31 1 63 31 ∧
    ¬ Covers .wrap (withI State.reset 0x300 [0x00]).mem 0x300 0 0 0 0 0 :=
  ⟨⟨0, 1, by decide, by decide, by decide, by decide⟩, ⟨0, 0, by decide, by decide, by decide, by decide⟩,
    fun ⟨_, _, h, _⟩ => absurd h (Nat.not_lt_zero _)⟩

/-- RET, CALL and RET after CALL: the empty stack, one entry, one free slot, and the full stack. -/
theorem witness_stack :
    0 < (withSp State.reset 1).sp.val ∧ 0 < (withSp State.reset 16).sp.val ∧ (withSp State.reset 0).sp.val = 0 ∧
    (withSp State.reset 0).sp.val < Config.stackCapacity ∧ (withSp State.reset 15).sp.val < Config.stackCapacity ∧
    (withSp State.reset 16).sp.val = Config.stackCapacity := by decide

theorem witness_KeySkips :
    ((withV State.reset [0xFF]).getV 0).toNat % 16 = (15 : RegIdx).val ∧
    ((withV State.reset [0x10]).getV 0).toNat % 16 = (0 : RegIdx).val := by decide

/-- The statements that treat X = F apart. -/
theorem witness_not_vf : (0 : RegIdx) ≠ vf ∧ (14 : RegIdx) ≠ vf := by decide

theorem witness_OnlyRnd :
    (∀ x nn, Instr.drw 0 1 2 ≠ .rnd x nn) ∧
    nextWith (exec (.drw 0 1 2) State.reset) (fun t => t.getV vf == 0) = true :=
  ⟨fun _ _ => by simp, by decide +kernel⟩

/-- LD B and LD [I]: the lowest and the highest place a store fits, and each way it does not. -/
theorem witness_Storable :
    Memory.wf State.reset.mem = true ∧ Storable (withI State.reset 0x050).i.toNat 3 ∧
    Storable (withI State.reset 0xFFD).i.toNat 3 ∧ Storable (withI State.reset 0xFF0).i.toNat ((15 : RegIdx).val + 1) ∧
    0xFFF < (withI State.reset 0xFFE).i.toNat + 2 ∧ 0xFFF < (withI State.reset 0x1000).i.toNat + (0 : RegIdx).val ∧
    isFontAddr ((withI State.reset 0x04F).i.toNat + 0) = true ∧ isFontAddr (State.reset.i.toNat + 2) = true ∧
    isFontAddr 0x050 = false := by
  unfold Storable
  decide

/-- LD Vx, [I]: the last place it fits, and one byte on. -/
theorem witness_Load :
    (withI State.reset 0xFF0).i.toNat + (15 : RegIdx).val ≤ 0xFFF ∧
    0xFFF < (withI State.reset 0xFF1).i.toNat + (15 : RegIdx).val := by decide

theorem witness_IncrementPolicy :
    (∃ t, storeRegsUnder .fatal .xPlusOne 0 (withI State.reset 0xFFF) = .ok t) ∧
    (∃ t, loadRegsUnder .x 15 (withI State.reset 0xFF0) = .ok t) := ⟨⟨_, rfl⟩, ⟨_, rfl⟩⟩

theorem witness_FontWritePolicy :
    Memory.wf State.reset.mem = true ∧ 0xFFF < 0x1000 ∧ isFontAddr 0 = true ∧ isFontAddr 79 = true := by decide

theorem witness_FetchSees :
    Storable (withI State.reset 0x300).i.toNat ((1 : RegIdx).val + 1) ∧ (1 : RegIdx) ≤ 1 ∧
    (1 : RegIdx).val = (0 : RegIdx).val + 1 ∧ ∃ t, exec (.store 1) (withI State.reset 0x300) = .next t :=
  ⟨by unfold Storable; decide, by decide, by decide, ⟨_, rfl⟩⟩

/-- WaitForKeyTakesTheLowest: the highest key alone, the lowest of two, and none. -/
theorem witness_WaitForKey :
    (withKeys State.reset [15]).keys[15] = true ∧
    (∀ j : RegIdx, j < 15 → (withKeys State.reset [15]).keys[j.val] = false) ∧
    (withKeys State.reset [9, 3]).keys[3] = true ∧
    (∀ j : RegIdx, j < 3 → (withKeys State.reset [9, 3]).keys[j.val] = false) ∧
    (∀ j : RegIdx, State.reset.keys[j.val] = false) := by decide

/-- EachFatalErrorHasItsInstructions: a safe state from which each kind comes. -/
theorem witness_EachFatalError :
    State.reset.Safe ∧
    nextWith (exec (.call 0) (withSp State.reset 16)) (fun t => t.fr.valid && t.fr.kind == .stackOverflow) = true ∧
    nextWith (exec (.ret 0) State.reset) (fun t => t.fr.valid && t.fr.kind == .stackUnderflow) = true ∧
    nextWith (exec (.load 0) (withI State.reset 0x1000)) (fun t => t.fr.valid && t.fr.kind == .memOobRead) = true ∧
    nextWith (exec (.store 0) (withI State.reset 0x1000)) (fun t => t.fr.valid && t.fr.kind == .memOobWrite) = true ∧
    nextWith (exec (.ldB 0) State.reset) (fun t => t.fr.valid && t.fr.kind == .fontWrite) = true :=
  ⟨rfl, by decide⟩

/-- EachUnitHasItsWriters: an instruction that changes each unit. -/
theorem witness_EachUnit :
    nextWith (exec (.ldDtVx 0) (withV State.reset [1])) (fun t => t.dt != (withV State.reset [1]).dt) = true ∧
    nextWith (exec (.ldStVx 0) (withV State.reset [1])) (fun t => t.st != (withV State.reset [1]).st) = true ∧
    nextWith (exec (.call 0) { State.reset with pc := 1 }) (fun t => t.stack != State.reset.stack && t.sp != 0) = true ∧
    nextWith (exec (.store 0) (withV (withI State.reset 0x300) [1])) (fun t => t.mem != State.reset.mem) = true ∧
    nextWith (exec (.ldI 1) State.reset) (fun t => t.i != 0) = true ∧
    nextWith (exec (.drw 0 0 1) State.reset) (fun t => Display.pixel t.display 0 0) = true := by decide +kernel

/-- VfHasItsWriters: one instruction of each group that changes VF (for DRW, over a lit pixel). -/
theorem witness_VfHasItsWriters :
    [Instr.addReg 0 1, .ldByte vf 1, .orReg vf 0, .ldVxDt vf, .ldVxK vf].all (fun i =>
      nextWith (exec i ((withKeys (withV State.reset [0xFF, 1]) [1]).setDt 1)) (fun t => t.getV vf != State.reset.getV vf))
      = true ∧
    nextWith (exec (.drw 0 0 1) (State.reset.setDisplay (Display.flip Display.blank 0 0)))
      (fun t => t.getV vf != State.reset.getV vf) = true ∧
    nextWith (exec (.load vf) (withI State.reset 0x01E)) (fun t => t.getV vf != State.reset.getV vf) = true := by
  decide +kernel

/-- RunStateTransitions: a next state for every event, and a fatal Cycle. -/
theorem witness_RunState :
    [Event.init [], .pauseToggle, .quit, .tick, .setKeys State.reset.keys, .cycle 0].all (fun e =>
      nextWith (step (State.reset.setInbox [e])) (fun _ => true)) = true ∧
    nextWith (step (ready 0x200 0x00EE)) (fun t => t.rs == .quit && t.fr.valid) = true ∧
    nextWith (step State.reset) (fun t => t.rs == .running) = true := by decide

theorem witness_QuitIsFinal :
    (((State.reset.setRs .quit).setInbox [.tick, .cycle 1, .pauseToggle])).rs = .quit ∧
    ∀ rom, Event.init rom ∉ (((State.reset.setRs .quit).setInbox [.tick, .cycle 1, .pauseToggle])).inbox.take 3 :=
  ⟨rfl, fun _ => by simp [State.setInbox]⟩

/-- StepKeepsTheInvariant: a state with the invariant that has a next state, and one recorded as fatal. -/
theorem witness_StepKeepsTheInvariant :
    ((State.reset.setDt 1).setInbox [.tick]).Inv ∧ (∃ t, step ((State.reset.setDt 1).setInbox [.tick]) = .next t) ∧
    (fatalPath (State.reset.setInbox [.tick]) 0x200 none ⟨.memOobFetch, 0x1000⟩).Inv :=
  ⟨⟨rfl, fun _ _ => rfl, .inl ⟨rfl, rfl⟩⟩, ⟨_, rfl⟩,
    ⟨rfl, fun _ _ => rfl, .inr ⟨rfl, rfl, by decide, rfl, fun _ => rfl⟩⟩⟩

/-- The rows: a word of each kind of class that Row takes (R83, R84), under both values of STRICT_DECODE. -/
theorem witness_Row :
    OfClass 0x1 true 0x1ABC ∧ OfClassN 0x8 0xE true 0x8ABE ∧ OfClassNN 0xF 0x65 true 0xFF65 ∧ OfClass0 0xE0 true 0x00E0 ∧
    OfClass0 0xEE false 0x0FEE ∧ OfClassXY 0x5 true 0x5AB0 ∧ OfClassXY 0x9 false 0x9ABF := by
  simp only [OfClass, OfClassN, OfClassNN, OfClass0, OfClassXY]
  decide

end Sys2Proof.Tests
end

section
/-! PROOF. What Init leaves in the block (10_state.md R40, R43, R48; 70_reset_and_hazards.md R270). -/

namespace Sys2Proof.Machine

/-- Before any ROM, the font bytes are FONT_DATA (R40). -/
theorem initialByte_fontBase_add {k : Nat} (hk : k < 80) :
    initialByte (Config.fontBase + k) = Config.fontData.getD k 0 := by
  have hfont : isFontAddr (Config.fontBase + k) = true := (isFontAddr_iff _).2 ⟨by omega, by omega⟩
  rw [initialByte, if_pos hfont, Nat.add_sub_cancel_left]

/-- Before any ROM, every byte outside the font is 0 (R40). -/
theorem initialByte_of_not_font {a : Nat} (ha : ¬ (Config.fontBase ≤ a ∧ a < Config.fontBase + 80)) :
    initialByte a = 0 := by
  rw [initialByte, if_neg (mt (isFontAddr_iff a).1 ha)]

/-- The font ends at or below the place of the ROM (00_scope.md R5, D3). -/
theorem font_below_rom : Config.fontBase + 80 ≤ Config.romBase := by decide

/-- What a byte of memory holds once a ROM that fits is loaded after construction. -/
theorem read_loadedRom {rom : List Byte} (h : rom.length ≤ Config.romMax) (a : Nat) :
    Memory.read (Memory.place [] Config.romBase rom) a =
      if Config.romBase ≤ a ∧ a < Config.romBase + rom.length then rom.getD (a - Config.romBase) 0
      else initialByte a := by
  have hfit : Config.romBase + rom.length ≤ Config.memSize := Nat.add_le_add_left h Config.romBase
  rw [Memory.read_place (m := []) Memory.wf_reset hfit, Memory.read_nil]

/-- The step of an Init whose ROM fits: the reset state with the ROM loaded; the host's later events and the draw counter
stay (log 4). -/
theorem step_init {s : State} {rom : List Byte} {es : List Event} (hs : s.inbox = .init rom :: es)
    (h : rom.length ≤ Config.romMax) :
    step s =
      .next (((State.reset.setMem (Memory.place [] Config.romBase rom)).setInbox es).setDraw none s.draws) := by
  rw [step_of_cons hs, handleEvent, runInit_eq, if_pos h]
  rfl

/-- Settles O16: the Init step loads the ROM over the memory of construction, and the font lies below the ROM. -/
theorem initLoadsFontAndRom : Obligations.InitLoadsFontAndRom := by
  unfold Obligations.InitLoadsFontAndRom
  intro s rom es hs hlen
  have hread := read_loadedRom (rom := rom) hlen
  refine ⟨_, step_init hs hlen, fun k hk => ?font, fun j hj => ?rom, fun a _ hfont hrom => ?rest, rfl, rfl⟩
  case font =>
    have hbelow := font_below_rom
    exact (hread _).trans ((if_neg (by omega)).trans (initialByte_fontBase_add hk))
  case rom =>
    refine (hread (Config.romBase + j)).trans ?_
    rw [if_pos ⟨Nat.le_add_right _ _, Nat.add_lt_add_left hj _⟩, Nat.add_sub_cancel_left]
  case rest =>
    exact (hread a).trans ((if_neg hrom).trans (initialByte_of_not_font hfont))

end Sys2Proof.Machine
end


section
/-! PROOF. The fields of a word as numbers (30_encoding.md R81), and a Cycle outside RUNNING (30_encoding.md R91). -/

namespace Sys2Proof

/-- A bit field of a word as a number: shifted down by its lowest bit, cut to its width. -/
theorem toNat_extractLsb_eq_div_mod (w : Word) (hi lo : Nat) :
    (w.extractLsb hi lo).toNat = w.toNat / 2 ^ lo % 2 ^ (hi - lo + 1) := by
  rw [BitVec.extractLsb_toNat, Nat.shiftRight_eq_div_pow]

/-- The class is the highest nibble, so nothing above it is cut off. -/
theorem toNat_fieldC (w : Word) : (fieldC w).toNat = w.toNat / 4096 := by
  have hfield : (fieldC w).toNat = w.toNat / 4096 % 16 := toNat_extractLsb_eq_div_mod w 15 12
  have hw : w.toNat < 65536 := w.isLt
  omega

theorem toNat_fieldX (w : Word) : (fieldX w).toNat = w.toNat / 256 % 16 := toNat_extractLsb_eq_div_mod w 11 8

theorem toNat_fieldY (w : Word) : (fieldY w).toNat = w.toNat / 16 % 16 := toNat_extractLsb_eq_div_mod w 7 4

/-- A field that ends at bit 0 is a remainder of the word. -/
theorem toNat_extractLsb_zero (w : Word) (hi : Nat) : (w.extractLsb hi 0).toNat = w.toNat % 2 ^ (hi + 1) := by
  rw [toNat_extractLsb_eq_div_mod, Nat.pow_zero, Nat.div_one, Nat.sub_zero]

theorem toNat_fieldN (w : Word) : (fieldN w).toNat = w.toNat % 16 := toNat_extractLsb_zero w 3

theorem toNat_fieldNN (w : Word) : (fieldNN w).toNat = w.toNat % 256 := toNat_extractLsb_zero w 7

theorem toNat_fieldNNN (w : Word) : (fieldNNN w).toNat = w.toNat % 4096 := toNat_extractLsb_zero w 11

/-- Settles O2: each field's number, by its own lemma. -/
theorem fieldsAreTheWordsBits : Obligations.FieldsAreTheWordsBits := by
  unfold Obligations.FieldsAreTheWordsBits
  exact fun w => ⟨toNat_fieldC w, toNat_fieldX w, toNat_fieldY w, toNat_fieldN w, toNat_fieldNN w, toNat_fieldNNN w⟩

namespace Machine

/-- Settles O10: the step hands the oldest event, a Cycle, to `runCycle`, which outside RUNNING answers its state. -/
theorem cycleOutsideRunningChangesNothing : Obligations.CycleOutsideRunningChangesNothing := by
  unfold Obligations.CycleOutsideRunningChangesNothing
  intro s r es hrs hs
  have hrest : (s.setInbox es).rs ≠ .running := hrs
  calc step s
    _ = handleEvent (.cycle r) (s.setInbox es) := step_of_cons hs
    _ = .next (s.setInbox es) := runCycle_not_running hrest (some r)

end Machine

end Sys2Proof
end


section
/-! PROOF. CLS (40_display.md R110), and the rows of class 0x0 it shares with RET (30_encoding.md R83, R84). -/

namespace Sys2Proof

theorem decodeUnder_of_class0 (strict : Bool) {w : Word} (hc : fieldC w = 0x0) :
    decodeUnder strict w = decodeClass0 strict w := by
  rw [decodeUnder, hc]
  rfl

/-- A word that STRICT_DECODE admits is dispatched as under STRICT_DECODE = false (R83). -/
theorem decodeClass0_eq_lenient {strict : Bool} {w : Word} (hx : strict = true → fieldX w = 0) :
    decodeClass0 strict w = decodeClass0 false w := by
  cases strict with
  | false => rfl
  | true =>
    have hpass : ¬ ((true && fieldX w != 0) = true) := by simp [hx rfl]
    rw [decodeClass0, if_neg hpass]
    rfl

theorem decodeClass0_cls {w : Word} (hnn : fieldNN w = 0xE0) : decodeClass0 false w = .ok (.cls (fieldX w)) := by
  rw [decodeClass0, hnn]
  rfl

namespace Machine

/-- A row of class 0x0 is a row of its dispatch on NN, where STRICT_DECODE makes no difference. -/
theorem row_ofClass0 {nn : Byte} {i : Word → Instr}
    (h : ∀ w, fieldNN w = nn → decodeClass0 false w = .ok (i w)) : Row (OfClass0 nn) i := by
  intro strict w hw
  obtain ⟨hc, hnn, hx⟩ := hw
  calc decodeUnder strict w
    _ = decodeClass0 strict w := decodeUnder_of_class0 strict hc
    _ = decodeClass0 false w := decodeClass0_eq_lenient hx
    _ = .ok (i w) := h w hnn

/-- Setting the display changes no general register. -/
theorem sameRegsBut_setDisplay (s : State) (d : Display) : SameRegsBut [] s (s.setDisplay d) :=
  fun r _ => s.setDisplay_getV d r

/-- Setting the display changes no byte of memory. -/
theorem sameMemory_setDisplay (s : State) (d : Display) : SameMemory s (s.setDisplay d) :=
  fun a => congrArg (Memory.read · a) (s.setDisplay_mem d)

/-- Settles O19: the row by the dispatch of class 0x0; CLS sets the display to the blank one, and that alone. -/
theorem clsTurnsEveryPixelOff : Obligations.ClsTurnsEveryPixelOff := by
  unfold Obligations.ClsTurnsEveryPixelOff
  refine ⟨row_ofClass0 fun _ => decodeClass0_cls, fun z s =>
    ⟨s.setDisplay Display.blank, exec_cls s z, ?pixels, ?regs, ?mem, ?rest⟩⟩
  case pixels => exact Display.pixel_blank
  case regs => exact sameRegsBut_setDisplay s Display.blank
  case mem => exact sameMemory_setDisplay s Display.blank
  case rest => rfl

end Machine

end Sys2Proof
end


section
/-! PROOF. Control flow: JP, CALL, RET and the byte skips (41_control_flow.md R120 to R126), with their rows of the opcode
map (30_encoding.md R83, R84). -/

namespace Sys2Proof

theorem decodeClass0_ret {w : Word} (hnn : fieldNN w = 0xEE) : decodeClass0 false w = .ok (.ret (fieldX w)) := by
  rw [decodeClass0, hnn]
  rfl

theorem decodeUnder_of_class1 (strict : Bool) {w : Word} (hc : fieldC w = 0x1) :
    decodeUnder strict w = .ok (.jp (fieldNNN w)) := by
  rw [decodeUnder, hc]
  rfl

theorem decodeUnder_of_class2 (strict : Bool) {w : Word} (hc : fieldC w = 0x2) :
    decodeUnder strict w = .ok (.call (fieldNNN w)) := by
  rw [decodeUnder, hc]
  rfl

theorem decodeUnder_of_class3 (strict : Bool) {w : Word} (hc : fieldC w = 0x3) :
    decodeUnder strict w = .ok (.seByte (regX w) (fieldNN w)) := by
  rw [decodeUnder, hc]
  rfl

theorem decodeUnder_of_class4 (strict : Bool) {w : Word} (hc : fieldC w = 0x4) :
    decodeUnder strict w = .ok (.sneByte (regX w) (fieldNN w)) := by
  rw [decodeUnder, hc]
  rfl

namespace Machine

/-! ### Frames -/

theorem sameRegsBut_of_v_eq {s t : State} (rs : List RegIdx) (h : t.v = s.v) : SameRegsBut rs s t :=
  fun r _ => congrArg (·[r.val]) h

theorem sameMemory_of_mem_eq {s t : State} (h : t.mem = s.mem) : SameMemory s t :=
  fun a => congrArg (Memory.read · a) h

theorem onlyPc_setPc (s : State) (w : Word) : OnlyPc s (s.setPc w) :=
  ⟨sameRegsBut_of_v_eq [] (s.setPc_v w), s.setPc_i w, sameMemory_of_mem_eq (s.setPc_mem w),
    rfl, rfl, rfl, rfl, rfl, rfl, rfl, rfl, rfl, rfl, rfl⟩

/-- An address field keeps its value in the 16 bits of PC. -/
theorem toNat_zext16 (nnn : BitVec 12) : (zext16 nnn).toNat = nnn.toNat :=
  BitVec.toNat_setWidth_of_le (by decide)

/-- A skip sets PC, to the value it had when it does not skip. -/
theorem skipIf_eq_setPc (b : Bool) (s : State) : skipIf b s = s.setPc (if b then s.pc + 2 else s.pc) := by
  cases b with
  | true => exact skipIf_true s
  | false => exact skipIf_false s

/-- The fatal path of an instruction stops it with the kind raised, its frame included. -/
theorem fatalStop_fatalPath (s : State) (w : Option Word) (e : Raise) :
    FatalStop e.kind s (fatalPath s s.pc0 w e) :=
  ⟨rfl, rfl, fatalPath_rs s s.pc0 w e, fatalPath_pc s s.pc0 w e, fatalPath_eq s s.pc0 w e⟩

/-! ### The obligations -/

/-- Settles O27: the row by the class; JP sets PC alone, and the address field keeps its value there. -/
theorem jpSetsThePc : Obligations.JpSetsThePc := by
  unfold Obligations.JpSetsThePc
  exact ⟨fun strict _ hc => decodeUnder_of_class1 strict hc, fun nnn s =>
    ⟨s.setPc (zext16 nnn), exec_jp s nnn, toNat_zext16 nnn, onlyPc_setPc s (zext16 nnn)⟩⟩

/-- Settles O29: the rows by their classes; each skip sets PC alone, by the outcome of its comparison. -/
theorem byteSkips : Obligations.ByteSkips := by
  unfold Obligations.ByteSkips
  refine ⟨fun strict _ hc => decodeUnder_of_class3 strict hc, fun strict _ hc => decodeUnder_of_class4 strict hc,
    fun x nn s => ⟨⟨_, (exec_seByte s x nn).trans (congrArg _ (skipIf_eq_setPc _ s)), ?equal, onlyPc_setPc s _⟩,
      ⟨_, (exec_sneByte s x nn).trans (congrArg _ (skipIf_eq_setPc _ s)), ?unequal, onlyPc_setPc s _⟩⟩⟩
  case equal => by_cases h : s.getV x = nn <;> simp [h]
  case unequal => by_cases h : s.getV x = nn <;> simp [h]

/-- Settles O24: the row by the dispatch of class 0x0; RET with an entry moves PC and SP only, and on an empty stack takes
the fatal path. -/
theorem retPopsThePc : Obligations.RetPopsThePc := by
  unfold Obligations.RetPopsThePc
  refine ⟨row_ofClass0 fun _ => decodeClass0_ret, fun z s => ⟨fun h => ?entry, fun h => ?empty⟩⟩
  case entry =>
    exact ⟨_, exec_ret s z h, rfl, rfl, sameRegsBut_of_v_eq [] rfl, sameMemory_of_mem_eq rfl, rfl⟩
  case empty => exact ⟨_, exec_ret_empty s z h, fatalStop_fatalPath s _ _⟩

/-- Settles O25: the row by the class; CALL with a free slot writes that slot, SP and PC only, and on a full stack takes the
fatal path. -/
theorem callPushesThePc : Obligations.CallPushesThePc := by
  unfold Obligations.CallPushesThePc
  refine ⟨fun strict _ hc => decodeUnder_of_class2 strict hc, fun nnn s => ⟨fun h => ?free, fun h => ?full⟩⟩
  case free =>
    refine ⟨_, exec_call s nnn h, ?pushed, fun k hk => ?kept, rfl, toNat_zext16 nnn, sameRegsBut_of_v_eq [] rfl,
      sameMemory_of_mem_eq rfl, rfl⟩
    case pushed => exact Vector.getElem_set_self h
    case kept => exact Vector.getElem_set_ne h k.isLt hk.symm
  case full => exact ⟨_, exec_call_full s nnn h, fatalStop_fatalPath s _ _⟩

end Machine

end Sys2Proof
end


section
/-! PROOF. The instructions that write V[X] and set no flag: LD, ADD with a byte, OR, AND and XOR (42_alu.md R139 to R145),
with their rows of the opcode map (30_encoding.md R83, R84). -/

namespace Sys2Proof

theorem decodeUnder_of_class6 (strict : Bool) {w : Word} (hc : fieldC w = 0x6) :
    decodeUnder strict w = .ok (.ldByte (regX w) (fieldNN w)) := by
  rw [decodeUnder, hc]
  rfl

theorem decodeUnder_of_class7 (strict : Bool) {w : Word} (hc : fieldC w = 0x7) :
    decodeUnder strict w = .ok (.addByte (regX w) (fieldNN w)) := by
  rw [decodeUnder, hc]
  rfl

theorem decodeUnder_of_class8 (strict : Bool) {w : Word} (hc : fieldC w = 0x8) :
    decodeUnder strict w = decodeClass8 w := by
  rw [decodeUnder, hc]
  rfl

theorem decodeClass8_ldReg {w : Word} (hn : fieldN w = 0x0) : decodeClass8 w = .ok (.ldReg (regX w) (regY w)) := by
  rw [decodeClass8, hn]
  rfl

theorem decodeClass8_orReg {w : Word} (hn : fieldN w = 0x1) : decodeClass8 w = .ok (.orReg (regX w) (regY w)) := by
  rw [decodeClass8, hn]
  rfl

theorem decodeClass8_andReg {w : Word} (hn : fieldN w = 0x2) : decodeClass8 w = .ok (.andReg (regX w) (regY w)) := by
  rw [decodeClass8, hn]
  rfl

theorem decodeClass8_xorReg {w : Word} (hn : fieldN w = 0x3) : decodeClass8 w = .ok (.xorReg (regX w) (regY w)) := by
  rw [decodeClass8, hn]
  rfl

namespace Machine

/-- A row of class 0x8 is a row of its dispatch on N. -/
theorem row_ofClass8 {n : BitVec 4} {i : Word → Instr} (h : ∀ w, fieldN w = n → decodeClass8 w = .ok (i w)) :
    Row (OfClassN 0x8 n) i := by
  intro strict w hw
  obtain ⟨hc, hn⟩ := hw
  exact (decodeUnder_of_class8 strict hc).trans (h w hn)

/-! ### Frames of register writes -/

theorem OnlyRegs.refl (rs : List RegIdx) (s : State) : OnlyRegs rs s s :=
  ⟨sameRegsBut_of_v_eq rs rfl, rfl, rfl, sameMemory_of_mem_eq rfl,
    rfl, rfl, rfl, rfl, rfl, rfl, rfl, rfl, rfl, rfl, rfl⟩

/-- One more write to a register of the list stays within the list. -/
theorem OnlyRegs.setV {rs : List RegIdx} {s t : State} (h : OnlyRegs rs s t) {r : RegIdx} (hr : r ∈ rs) (b : Byte) :
    OnlyRegs rs s (t.setV r b) := by
  obtain ⟨hregs, hi, hpc, hmem, hunits⟩ := h
  refine ⟨fun q hq => ?_, hi, hpc, hmem, hunits⟩
  have hne : q ≠ r := fun heq => hq (heq ▸ hr)
  exact (t.getV_setV_ne b hne).trans (hregs q hq)

theorem onlyRegs_setV (s : State) (x : RegIdx) (b : Byte) : OnlyRegs [x] s (s.setV x b) :=
  (OnlyRegs.refl [x] s).setV List.mem_cons_self b

/-- An instruction that answers the state with `b` in V[X] writes V[X] alone. -/
theorem exec_setV_spec {i : Instr} {s : State} {x : RegIdx} {b : Byte} (h : exec i s = .next (s.setV x b)) :
    ∃ t, exec i s = .next t ∧ t.getV x = b ∧ OnlyRegs [x] s t :=
  ⟨s.setV x b, h, s.getV_setV_same x b, onlyRegs_setV s x b⟩

/-! ### The shared operation of OR, AND and XOR -/

/-- With LOGIC_VF_RESET = false, only the result is written (R139). -/
theorem logicUnder_false (f : Byte → Byte → Byte) (x y : RegIdx) (s : State) :
    logicUnder false f x y s = s.setV x (f (s.getV x) (s.getV y)) := rfl

/-- With LOGIC_VF_RESET = true, VF is cleared after the result is written (R139). -/
theorem logicUnder_true (f : Byte → Byte → Byte) (x y : RegIdx) (s : State) :
    logicUnder true f x y s = (s.setV x (f (s.getV x) (s.getV y))).setV vf 0 := rfl

/-- The result stands in V[X] but for X = F, where the clearing of VF comes last (D7). -/
theorem logicUnder_true_spec (f : Byte → Byte → Byte) (x y : RegIdx) (s : State) :
    (logicUnder true f x y s).getV vf = 0 ∧
    (x ≠ vf → (logicUnder true f x y s).getV x = f (s.getV x) (s.getV y)) ∧
    OnlyRegs [x, vf] s (logicUnder true f x y s) := by
  rw [logicUnder_true]
  refine ⟨State.getV_setV_same _ vf 0, fun hx => ?result, ?frame⟩
  case result => exact (State.getV_setV_ne _ 0 hx).trans (s.getV_setV_same x _)
  case frame =>
    exact ((OnlyRegs.refl [x, vf] s).setV List.mem_cons_self _).setV (List.mem_cons_of_mem x List.mem_cons_self) 0

/-- An instruction that answers the shared operation under the spec's LOGIC_VF_RESET writes its result to V[X] alone. -/
theorem exec_logic_spec {i : Instr} {s : State} {f : Byte → Byte → Byte} {x y : RegIdx}
    (h : exec i s = .next (logicUnder Config.logicVfReset f x y s)) :
    ∃ t, exec i s = .next t ∧ t.getV x = f (s.getV x) (s.getV y) ∧ OnlyRegs [x] s t :=
  exec_setV_spec (h.trans (congrArg _ (logicUnder_false f x y s)))

/-! ### The obligations -/

/-- Settles O32: the rows by their classes; each instruction sets V[X] alone, and a sum of bytes is taken modulo 256. -/
theorem loadsAndAddImmediateWriteVx : Obligations.LoadsAndAddImmediateWriteVx := by
  unfold Obligations.LoadsAndAddImmediateWriteVx
  refine ⟨fun strict _ hc => decodeUnder_of_class6 strict hc, fun strict _ hc => decodeUnder_of_class7 strict hc,
    row_ofClass8 fun _ => decodeClass8_ldReg, fun x y nn s =>
      ⟨exec_setV_spec (exec_ldByte s x nn), ?add, exec_setV_spec (exec_ldReg s x y)⟩⟩
  case add =>
    obtain ⟨t, ht, hsum, honly⟩ := exec_setV_spec (exec_addByte s x nn)
    exact ⟨t, ht, (congrArg BitVec.toNat hsum).trans (BitVec.toNat_add _ _), honly⟩

/-- Settles O33: the rows by the dispatch of class 0x8; under the spec's LOGIC_VF_RESET only the result is written, and
under the other value VF is cleared after it. -/
theorem logicWritesVxBitwise : Obligations.LogicWritesVxBitwise := by
  unfold Obligations.LogicWritesVxBitwise
  refine ⟨row_ofClass8 fun _ => decodeClass8_orReg, row_ofClass8 fun _ => decodeClass8_andReg,
    row_ofClass8 fun _ => decodeClass8_xorReg, fun x y s =>
      ⟨exec_logic_spec (exec_orReg s x y), exec_logic_spec (exec_andReg s x y), exec_logic_spec (exec_xorReg s x y),
        fun f => logicUnder_true_spec f x y s⟩⟩

end Machine

end Sys2Proof
end


section
/-! PROOF. LD I (43_index_memory.md R170), with its row of the opcode map (30_encoding.md R84). -/

namespace Sys2Proof

theorem decodeUnder_of_classA (strict : Bool) {w : Word} (hc : fieldC w = 0xA) :
    decodeUnder strict w = .ok (.ldI (fieldNNN w)) := by
  rw [decodeUnder, hc]
  rfl

namespace Machine

theorem onlyIndex_setI (s : State) (w : Word) : OnlyIndex s (s.setI w) :=
  ⟨sameRegsBut_of_v_eq [] (s.setI_v w), s.setI_pc w, sameMemory_of_mem_eq (s.setI_mem w),
    rfl, rfl, rfl, rfl, rfl, rfl, rfl, rfl, rfl, rfl, rfl⟩

/-- Settles O40: the row by the class; LD I sets I alone, and the address field keeps its value there. -/
theorem ldISetsTheIndex : Obligations.LdISetsTheIndex := by
  unfold Obligations.LdISetsTheIndex
  refine ⟨fun strict _ hc => decodeUnder_of_classA strict hc, fun nnn s =>
    ⟨s.setI (zext16 nnn), exec_ldI s nnn, ?value, onlyIndex_setI s (zext16 nnn)⟩⟩
  case value => exact (congrArg BitVec.toNat (s.setI_i (zext16 nnn))).trans (toNat_zext16 nnn)

end Machine

end Sys2Proof
end


section
/-! PROOF. The timer instructions (44_keys_timers.md R192, R194, R195), with their rows of class 0xF of the opcode map
(30_encoding.md R83, R84). -/

namespace Sys2Proof

theorem decodeUnder_of_classF (strict : Bool) {w : Word} (hc : fieldC w = 0xF) :
    decodeUnder strict w = decodeClassF w := by
  rw [decodeUnder, hc]
  rfl

theorem decodeClassF_ldVxDt {w : Word} (hnn : fieldNN w = 0x07) : decodeClassF w = .ok (.ldVxDt (regX w)) := by
  rw [decodeClassF, hnn]
  rfl

theorem decodeClassF_ldDtVx {w : Word} (hnn : fieldNN w = 0x15) : decodeClassF w = .ok (.ldDtVx (regX w)) := by
  rw [decodeClassF, hnn]
  rfl

theorem decodeClassF_ldStVx {w : Word} (hnn : fieldNN w = 0x18) : decodeClassF w = .ok (.ldStVx (regX w)) := by
  rw [decodeClassF, hnn]
  rfl

namespace Machine

/-- A row of class 0xF is a row of its dispatch on NN. -/
theorem row_ofClassF {nn : Byte} {i : Word → Instr} (h : ∀ w, fieldNN w = nn → decodeClassF w = .ok (i w)) :
    Row (OfClassNN 0xF nn) i := by
  intro strict w hw
  obtain ⟨hc, hnn⟩ := hw
  exact (decodeUnder_of_classF strict hc).trans (h w hnn)

/-- The sound is on exactly while ST is not 0 (R195). -/
theorem soundOn_iff (s : State) : s.soundOn = true ↔ s.st ≠ 0 := bne_iff_ne

/-- Settles O48: the rows by the dispatch of class 0xF; each instruction sets V[X], DT or ST alone, and the sound follows
the byte set in ST. -/
theorem timerMoves : Obligations.TimerMoves := by
  unfold Obligations.TimerMoves
  refine ⟨row_ofClassF fun _ => decodeClassF_ldVxDt, row_ofClassF fun _ => decodeClassF_ldDtVx,
    row_ofClassF fun _ => decodeClassF_ldStVx, fun x s => ⟨exec_setV_spec (exec_ldVxDt s x), ?delay, ?sound⟩⟩
  case delay =>
    exact ⟨s.setDt (s.getV x), exec_ldDtVx s x, s.setDt_dt (s.getV x), sameRegsBut_of_v_eq [] (s.setDt_v (s.getV x)),
      sameMemory_of_mem_eq (s.setDt_mem (s.getV x)), rfl⟩
  case sound =>
    exact ⟨s.setSt (s.getV x), exec_ldStVx s x, s.setSt_st (s.getV x), soundOn_iff (s.setSt (s.getV x)),
      sameRegsBut_of_v_eq [] (s.setSt_v (s.getV x)), sameMemory_of_mem_eq (s.setSt_mem (s.getV x)), rfl⟩

end Machine

end Sys2Proof
end


section
/-! PROOF. The host's PauseToggle and Quit (60_exceptions.md R251 to R253). -/

namespace Sys2Proof.Machine

theorem runPauseToggle_of_running {s : State} (h : s.rs = .running) : runPauseToggle s = s.setRs .paused := by
  rw [runPauseToggle, h]

theorem runPauseToggle_of_paused {s : State} (h : s.rs = .paused) : runPauseToggle s = s.setRs .running := by
  rw [runPauseToggle, h]

theorem step_pauseToggle {s : State} {es : List Event} (hs : s.inbox = .pauseToggle :: es) :
    step s = .next (runPauseToggle (s.setInbox es)) := step_of_cons hs

theorem step_quit {s : State} {es : List Event} (hs : s.inbox = .quit :: es) :
    step s = .next ((s.setInbox es).setRs .quit) := step_of_cons hs

/-- Settles O14: the step hands the event to `runPauseToggle`, which sets RS alone, by the run state it finds; taking the
event from the inbox leaves RS as it is. -/
theorem pauseToggleSwapsRunningAndPaused : Obligations.PauseToggleSwapsRunningAndPaused := by
  unfold Obligations.PauseToggleSwapsRunningAndPaused
  refine fun s es hs => ⟨fun hrs => ?running, fun hrs => ?paused⟩
  case running =>
    have hrest : (s.setInbox es).rs = .running := hrs
    exact (step_pauseToggle hs).trans (congrArg _ (runPauseToggle_of_running hrest))
  case paused =>
    have hrest : (s.setInbox es).rs = .paused := hrs
    exact (step_pauseToggle hs).trans (congrArg _ (runPauseToggle_of_paused hrest))

/-- Settles O15: in every run state the Quit step sets RS alone, so FR stays. -/
theorem quitSetsTheRunStateOnly : Obligations.QuitSetsTheRunStateOnly := by
  unfold Obligations.QuitSetsTheRunStateOnly
  exact fun _ _ hs => step_quit hs

end Sys2Proof.Machine
end


section
/-! PROOF. The opcode map (30_encoding.md R83, R84): its remaining classes, the rows of the encoder, that decoding and encoding
are inverse to each other, and the unknown opcodes (30_encoding.md R85). -/

namespace Sys2Proof

/-! ### The remaining classes and sub-codes -/

theorem decodeUnder_of_class5 (strict : Bool) {w : Word} (hc : fieldC w = 0x5) :
    decodeUnder strict w =
      if strict && fieldN w != 0 then .error (.unknownClass5 w) else .ok (.seReg (regX w) (regY w) (fieldN w)) := by
  rw [decodeUnder, hc]
  rfl

theorem decodeUnder_of_class9 (strict : Bool) {w : Word} (hc : fieldC w = 0x9) :
    decodeUnder strict w =
      if strict && fieldN w != 0 then .error (.unknownClass9 w) else .ok (.sneReg (regX w) (regY w) (fieldN w)) := by
  rw [decodeUnder, hc]
  rfl

theorem decodeUnder_of_classB (strict : Bool) {w : Word} (hc : fieldC w = 0xB) :
    decodeUnder strict w = .ok (.jpV0 (fieldNNN w)) := by
  rw [decodeUnder, hc]
  rfl

theorem decodeUnder_of_classC (strict : Bool) {w : Word} (hc : fieldC w = 0xC) :
    decodeUnder strict w = .ok (.rnd (regX w) (fieldNN w)) := by
  rw [decodeUnder, hc]
  rfl

theorem decodeUnder_of_classD (strict : Bool) {w : Word} (hc : fieldC w = 0xD) :
    decodeUnder strict w = .ok (.drw (regX w) (regY w) (nibbleIdx (fieldN w))) := by
  rw [decodeUnder, hc]
  rfl

theorem decodeUnder_of_classE (strict : Bool) {w : Word} (hc : fieldC w = 0xE) :
    decodeUnder strict w = decodeClassE w := by
  rw [decodeUnder, hc]
  rfl

/-- The sixteen values of a nibble, such as the class of a word. -/
theorem nibble_cases (c : BitVec 4) :
    c = 0x0 ∨ c = 0x1 ∨ c = 0x2 ∨ c = 0x3 ∨ c = 0x4 ∨ c = 0x5 ∨ c = 0x6 ∨ c = 0x7 ∨ c = 0x8 ∨ c = 0x9 ∨ c = 0xA ∨
    c = 0xB ∨ c = 0xC ∨ c = 0xD ∨ c = 0xE ∨ c = 0xF := by
  revert c
  decide

theorem decodeClass8_addReg {w : Word} (hn : fieldN w = 0x4) : decodeClass8 w = .ok (.addReg (regX w) (regY w)) := by
  rw [decodeClass8, hn]
  rfl

theorem decodeClass8_subReg {w : Word} (hn : fieldN w = 0x5) : decodeClass8 w = .ok (.subReg (regX w) (regY w)) := by
  rw [decodeClass8, hn]
  rfl

theorem decodeClass8_shr {w : Word} (hn : fieldN w = 0x6) : decodeClass8 w = .ok (.shr (regX w) (regY w)) := by
  rw [decodeClass8, hn]
  rfl

theorem decodeClass8_subn {w : Word} (hn : fieldN w = 0x7) : decodeClass8 w = .ok (.subn (regX w) (regY w)) := by
  rw [decodeClass8, hn]
  rfl

theorem decodeClass8_shl {w : Word} (hn : fieldN w = 0xE) : decodeClass8 w = .ok (.shl (regX w) (regY w)) := by
  rw [decodeClass8, hn]
  rfl

theorem decodeClassE_skp {w : Word} (hnn : fieldNN w = 0x9E) : decodeClassE w = .ok (.skp (regX w)) := by
  rw [decodeClassE, hnn]
  rfl

theorem decodeClassE_sknp {w : Word} (hnn : fieldNN w = 0xA1) : decodeClassE w = .ok (.sknp (regX w)) := by
  rw [decodeClassE, hnn]
  rfl

theorem decodeClassF_ldVxK {w : Word} (hnn : fieldNN w = 0x0A) : decodeClassF w = .ok (.ldVxK (regX w)) := by
  rw [decodeClassF, hnn]
  rfl

theorem decodeClassF_addI {w : Word} (hnn : fieldNN w = 0x1E) : decodeClassF w = .ok (.addI (regX w)) := by
  rw [decodeClassF, hnn]
  rfl

theorem decodeClassF_ldF {w : Word} (hnn : fieldNN w = 0x29) : decodeClassF w = .ok (.ldF (regX w)) := by
  rw [decodeClassF, hnn]
  rfl

theorem decodeClassF_ldB {w : Word} (hnn : fieldNN w = 0x33) : decodeClassF w = .ok (.ldB (regX w)) := by
  rw [decodeClassF, hnn]
  rfl

theorem decodeClassF_store {w : Word} (hnn : fieldNN w = 0x55) : decodeClassF w = .ok (.store (regX w)) := by
  rw [decodeClassF, hnn]
  rfl

theorem decodeClassF_load {w : Word} (hnn : fieldNN w = 0x65) : decodeClassF w = .ok (.load (regX w)) := by
  rw [decodeClassF, hnn]
  rfl

namespace Machine

/-! ### Rows -/

/-- Row 5XY-: STRICT_DECODE only wants N = 0 (R83). -/
theorem row_ofClass5 : Row (OfClassXY 0x5) (fun w => .seReg (regX w) (regY w) (fieldN w)) := by
  intro strict w ⟨hc, hn⟩
  have hpass : ¬ ((strict && fieldN w != 0) = true) := by simpa using hn
  rw [decodeUnder_of_class5 strict hc, if_neg hpass]

/-- Row 9XY-: STRICT_DECODE only wants N = 0 (R83). -/
theorem row_ofClass9 : Row (OfClassXY 0x9) (fun w => .sneReg (regX w) (regY w) (fieldN w)) := by
  intro strict w ⟨hc, hn⟩
  have hpass : ¬ ((strict && fieldN w != 0) = true) := by simpa using hn
  rw [decodeUnder_of_class9 strict hc, if_neg hpass]

/-- A row of class 0xE is a row of its dispatch on NN. -/
theorem row_ofClassE {nn : Byte} {i : Word → Instr} (h : ∀ w, fieldNN w = nn → decodeClassE w = .ok (i w)) :
    Row (OfClassNN 0xE nn) i := by
  intro strict w hw
  obtain ⟨hc, hnn⟩ := hw
  exact (decodeUnder_of_classE strict hc).trans (h w hnn)

end Machine

/-! ### Decoding an encoded instruction -/

/-- The encoding of an instruction of class 0x0 is a word of its row. -/
theorem ofClass0_assembleXNN {strict : Bool} {x : BitVec 4} (nn : Byte) (h : (!strict || x == 0) = true) :
    Machine.OfClass0 nn strict (assembleXNN 0x0 x nn) := by
  refine ⟨fieldC_assembleXNN _ _ _, fieldNN_assembleXNN _ _ _, fun hs => ?_⟩
  rw [fieldX_assembleXNN]
  simpa [hs] using h

/-- The encoding of an instruction of class 0x5 or 0x9 is a word of its row. -/
theorem ofClassXY_assemble {strict : Bool} (c x y : BitVec 4) {n : BitVec 4} (h : (!strict || n == 0) = true) :
    Machine.OfClassXY c strict (assemble c x y n) := by
  refine ⟨fieldC_assemble _ _ _ _, fun hs => ?_⟩
  rw [fieldN_assemble]
  simpa [hs] using h

namespace Machine

/-- A row of class 0x8 decodes the encoding with its sub-code N. -/
theorem decode_assemble_class8 {n : BitVec 4} {f : RegIdx → RegIdx → Instr}
    (h : ∀ w, fieldN w = n → decodeClass8 w = .ok (f (regX w) (regY w))) (strict : Bool) (x y : RegIdx) :
    decodeUnder strict (assemble 0x8 (.ofFin x) (.ofFin y) n) = .ok (f x y) :=
  (row_ofClass8 h strict _ ⟨fieldC_assemble _ _ _ _, fieldN_assemble _ _ _ _⟩).trans (by simp)

/-- A row of class 0xE decodes the encoding with its sub-code NN. -/
theorem decode_assembleXNN_classE {nn : Byte} {f : RegIdx → Instr}
    (h : ∀ w, fieldNN w = nn → decodeClassE w = .ok (f (regX w))) (strict : Bool) (x : RegIdx) :
    decodeUnder strict (assembleXNN 0xE (.ofFin x) nn) = .ok (f x) :=
  (row_ofClassE h strict _ ⟨fieldC_assembleXNN _ _ _, fieldNN_assembleXNN _ _ _⟩).trans (by simp)

/-- A row of class 0xF decodes the encoding with its sub-code NN. -/
theorem decode_assembleXNN_classF {nn : Byte} {f : RegIdx → Instr}
    (h : ∀ w, fieldNN w = nn → decodeClassF w = .ok (f (regX w))) (strict : Bool) (x : RegIdx) :
    decodeUnder strict (assembleXNN 0xF (.ofFin x) nn) = .ok (f x) :=
  (row_ofClassF h strict _ ⟨fieldC_assembleXNN _ _ _, fieldNN_assembleXNN _ _ _⟩).trans (by simp)

open Laws in
/-- Settles O3: the encoding of an instruction is a word of its row of the opcode map, and its fields are the operands. -/
theorem decodeOfEncodeIsTheInstruction : Obligations.DecodeOfEncodeIsTheInstruction := by
  unfold Obligations.DecodeOfEncodeIsTheInstruction
  intro strict i hwf
  cases i with
  | cls x =>
    exact (row_ofClass0 (fun _ => decodeClass0_cls) strict _ (ofClass0_assembleXNN 0xE0 hwf)).trans (by simp)
  | ret x =>
    exact (row_ofClass0 (fun _ => decodeClass0_ret) strict _ (ofClass0_assembleXNN 0xEE hwf)).trans (by simp)
  | jp nnn => exact (decodeUnder_of_class1 strict (EncodeClass.jp nnn)).trans (by simp [encode])
  | call nnn => exact (decodeUnder_of_class2 strict (EncodeClass.call nnn)).trans (by simp [encode])
  | seByte x nn => exact (decodeUnder_of_class3 strict (EncodeClass.seByte x nn)).trans (by simp [encode])
  | sneByte x nn => exact (decodeUnder_of_class4 strict (EncodeClass.sneByte x nn)).trans (by simp [encode])
  | seReg x y n => exact (row_ofClass5 strict _ (ofClassXY_assemble 0x5 (.ofFin x) (.ofFin y) hwf)).trans (by simp)
  | ldByte x nn => exact (decodeUnder_of_class6 strict (EncodeClass.ldByte x nn)).trans (by simp [encode])
  | addByte x nn => exact (decodeUnder_of_class7 strict (EncodeClass.addByte x nn)).trans (by simp [encode])
  | ldReg x y => exact decode_assemble_class8 (fun _ => decodeClass8_ldReg) strict x y
  | orReg x y => exact decode_assemble_class8 (fun _ => decodeClass8_orReg) strict x y
  | andReg x y => exact decode_assemble_class8 (fun _ => decodeClass8_andReg) strict x y
  | xorReg x y => exact decode_assemble_class8 (fun _ => decodeClass8_xorReg) strict x y
  | addReg x y => exact decode_assemble_class8 (fun _ => decodeClass8_addReg) strict x y
  | subReg x y => exact decode_assemble_class8 (fun _ => decodeClass8_subReg) strict x y
  | shr x y => exact decode_assemble_class8 (fun _ => decodeClass8_shr) strict x y
  | subn x y => exact decode_assemble_class8 (fun _ => decodeClass8_subn) strict x y
  | shl x y => exact decode_assemble_class8 (fun _ => decodeClass8_shl) strict x y
  | sneReg x y n => exact (row_ofClass9 strict _ (ofClassXY_assemble 0x9 (.ofFin x) (.ofFin y) hwf)).trans (by simp)
  | ldI nnn => exact (decodeUnder_of_classA strict (EncodeClass.ldI nnn)).trans (by simp [encode])
  | jpV0 nnn => exact (decodeUnder_of_classB strict (EncodeClass.jpV0 nnn)).trans (by simp [encode])
  | rnd x nn => exact (decodeUnder_of_classC strict (EncodeClass.rnd x nn)).trans (by simp [encode])
  | drw x y n => exact (decodeUnder_of_classD strict (EncodeClass.drw x y n)).trans (by simp [encode])
  | skp x => exact decode_assembleXNN_classE (fun _ => decodeClassE_skp) strict x
  | sknp x => exact decode_assembleXNN_classE (fun _ => decodeClassE_sknp) strict x
  | ldVxDt x => exact decode_assembleXNN_classF (fun _ => decodeClassF_ldVxDt) strict x
  | ldVxK x => exact decode_assembleXNN_classF (fun _ => decodeClassF_ldVxK) strict x
  | ldDtVx x => exact decode_assembleXNN_classF (fun _ => decodeClassF_ldDtVx) strict x
  | ldStVx x => exact decode_assembleXNN_classF (fun _ => decodeClassF_ldStVx) strict x
  | addI x => exact decode_assembleXNN_classF (fun _ => decodeClassF_addI) strict x
  | ldF x => exact decode_assembleXNN_classF (fun _ => decodeClassF_ldF) strict x
  | ldB x => exact decode_assembleXNN_classF (fun _ => decodeClassF_ldB) strict x
  | store x => exact decode_assembleXNN_classF (fun _ => decodeClassF_store) strict x
  | load x => exact decode_assembleXNN_classF (fun _ => decodeClassF_load) strict x

end Machine

/-! ### Encoding a decoded instruction -/

theorem assemble_of_fields {w : Word} {c n : BitVec 4} (hc : fieldC w = c) (hn : fieldN w = n) :
    assemble c (fieldX w) (fieldY w) n = w := by
  subst hc hn
  exact assemble_fields w

theorem assembleXNN_of_fields {w : Word} {c : BitVec 4} {nn : Byte} (hc : fieldC w = c) (hnn : fieldNN w = nn) :
    assembleXNN c (fieldX w) nn = w := by
  subst hc hnn
  exact assembleXNN_fields w

theorem assembleNNN_of_class {w : Word} {c : BitVec 4} (hc : fieldC w = c) : assembleNNN c (fieldNNN w) = w := by
  subst hc
  exact assembleNNN_fields w

/-- An answer of the decoder on `w`, if it is an instruction, keeps every bit of `w` and is admitted by STRICT_DECODE. -/
def DecodesBack (strict : Bool) (w : Word) (r : Except DecodeReject Instr) : Prop :=
  ∀ i, r = .ok i → encode i = w ∧ i.wellFormedUnder strict = true

theorem DecodesBack.ok {strict : Bool} {w : Word} {i : Instr} (he : encode i = w)
    (hwf : i.wellFormedUnder strict = true) : DecodesBack strict w (.ok i) := by
  rintro _ ⟨⟩
  exact ⟨he, hwf⟩

theorem DecodesBack.error (strict : Bool) (w : Word) (e : DecodeReject) : DecodesBack strict w (.error e) := nofun

theorem decodesBack_class0 (strict : Bool) {w : Word} (hc : fieldC w = 0x0) :
    DecodesBack strict w (decodeClass0 strict w) := by
  unfold decodeClass0
  split
  case isTrue => exact .error strict w _
  case isFalse hpass =>
    have hwf : (!strict || fieldX w == 0) = true := by cases strict <;> simp_all
    split
    case h_1 hnn => exact .ok (assembleXNN_of_fields hc hnn) hwf
    case h_2 hnn => exact .ok (assembleXNN_of_fields hc hnn) hwf
    case h_3 => exact .error strict w _

theorem decodesBack_class8 (strict : Bool) {w : Word} (hc : fieldC w = 0x8) :
    DecodesBack strict w (decodeClass8 w) := by
  unfold decodeClass8
  split
  case h_10 => exact .error strict w _
  all_goals next hn => exact .ok (assemble_of_fields hc hn) rfl

theorem decodesBack_classE (strict : Bool) {w : Word} (hc : fieldC w = 0xE) :
    DecodesBack strict w (decodeClassE w) := by
  unfold decodeClassE
  split
  case h_3 => exact .error strict w _
  all_goals next hnn => exact .ok (assembleXNN_of_fields hc hnn) rfl

theorem decodesBack_classF (strict : Bool) {w : Word} (hc : fieldC w = 0xF) :
    DecodesBack strict w (decodeClassF w) := by
  unfold decodeClassF
  split
  case h_10 => exact .error strict w _
  all_goals next hnn => exact .ok (assembleXNN_of_fields hc hnn) rfl

/-- The classes 0x5 and 0x9, where STRICT_DECODE wants N = 0. -/
theorem decodesBack_classXY {strict : Bool} {w : Word} {i : Instr} (e : DecodeReject) (he : encode i = w)
    (hwf : i.wellFormedUnder strict = (!strict || fieldN w == 0)) :
    DecodesBack strict w (if strict && fieldN w != 0 then .error e else .ok i) := by
  split
  case isTrue => exact .error strict w e
  case isFalse hpass =>
    refine .ok he (hwf.trans ?_)
    cases strict <;> simp_all

/-- Settles O4: every row of the opcode map keeps the class, the sub-code and the operands of its word. -/
theorem encodeOfDecodeIsTheWord : Obligations.EncodeOfDecodeIsTheWord := by
  unfold Obligations.EncodeOfDecodeIsTheWord
  intro strict w
  change DecodesBack strict w (decodeUnder strict w)
  obtain hc | hc | hc | hc | hc | hc | hc | hc | hc | hc | hc | hc | hc | hc | hc | hc := nibble_cases (fieldC w)
  · rw [decodeUnder_of_class0 strict hc]; exact decodesBack_class0 strict hc
  · rw [decodeUnder_of_class1 strict hc]; exact .ok (assembleNNN_of_class hc) rfl
  · rw [decodeUnder_of_class2 strict hc]; exact .ok (assembleNNN_of_class hc) rfl
  · rw [decodeUnder_of_class3 strict hc]; exact .ok (assembleXNN_of_fields hc rfl) rfl
  · rw [decodeUnder_of_class4 strict hc]; exact .ok (assembleXNN_of_fields hc rfl) rfl
  · rw [decodeUnder_of_class5 strict hc]; exact decodesBack_classXY _ (assemble_of_fields hc rfl) rfl
  · rw [decodeUnder_of_class6 strict hc]; exact .ok (assembleXNN_of_fields hc rfl) rfl
  · rw [decodeUnder_of_class7 strict hc]; exact .ok (assembleXNN_of_fields hc rfl) rfl
  · rw [decodeUnder_of_class8 strict hc]; exact decodesBack_class8 strict hc
  · rw [decodeUnder_of_class9 strict hc]; exact decodesBack_classXY _ (assemble_of_fields hc rfl) rfl
  · rw [decodeUnder_of_classA strict hc]; exact .ok (assembleNNN_of_class hc) rfl
  · rw [decodeUnder_of_classB strict hc]; exact .ok (assembleNNN_of_class hc) rfl
  · rw [decodeUnder_of_classC strict hc]; exact .ok (assembleXNN_of_fields hc rfl) rfl
  · rw [decodeUnder_of_classD strict hc]; exact .ok (assemble_of_fields hc rfl) rfl
  · rw [decodeUnder_of_classE strict hc]; exact decodesBack_classE strict hc
  · rw [decodeUnder_of_classF strict hc]; exact decodesBack_classF strict hc

/-! ### The unknown opcodes -/

/-- The decoder rejects. -/
def Rejects (r : Except DecodeReject Instr) : Prop := ∃ e, r = .error e

@[simp] theorem rejects_error (e : DecodeReject) : Rejects (.error e) := ⟨e, rfl⟩

@[simp] theorem not_rejects_ok (i : Instr) : ¬ Rejects (.ok i) := nofun

/-- A guard that rejects adds its words to those rejected. -/
theorem rejects_ite (c : Prop) [Decidable c] (e : DecodeReject) (r : Except DecodeReject Instr) :
    Rejects (if c then .error e else r) ↔ c ∨ Rejects r := by
  by_cases h : c <;> simp [h]

theorem rejects_class0 (strict : Bool) (w : Word) :
    Rejects (decodeClass0 strict w) ↔ fieldNN w ∉ [0xE0, 0xEE] ∨ (strict = true ∧ fieldX w ≠ 0) := by
  rw [decodeClass0, rejects_ite, or_comm]
  refine or_congr ?_ (by simp)
  split <;> simp_all

theorem rejects_class8 (w : Word) :
    Rejects (decodeClass8 w) ↔ fieldN w ∈ [0x8, 0x9, 0xA, 0xB, 0xC, 0xD, 0xF] := by
  unfold decodeClass8
  obtain h | h | h | h | h | h | h | h | h | h | h | h | h | h | h | h := nibble_cases (fieldN w) <;> simp [h]

theorem rejects_classE (w : Word) : Rejects (decodeClassE w) ↔ fieldNN w ∉ [0x9E, 0xA1] := by
  unfold decodeClassE
  split <;> simp_all

theorem rejects_classF (w : Word) :
    Rejects (decodeClassF w) ↔ fieldNN w ∉ [0x07, 0x0A, 0x15, 0x18, 0x1E, 0x29, 0x33, 0x55, 0x65] := by
  unfold decodeClassF
  split <;> simp_all

/-- Settles O5: class by class, the words that its dispatch rejects. -/
theorem unknownOpcodesAreExactlyTheListedWords : Obligations.UnknownOpcodesAreExactlyTheListedWords := by
  unfold Obligations.UnknownOpcodesAreExactlyTheListedWords
  intro strict w
  change Rejects (decodeUnder strict w) ↔ _
  obtain hc | hc | hc | hc | hc | hc | hc | hc | hc | hc | hc | hc | hc | hc | hc | hc := nibble_cases (fieldC w)
  · simp [decodeUnder_of_class0 strict hc, hc, rejects_class0]
  · simp [decodeUnder_of_class1 strict hc, hc]
  · simp [decodeUnder_of_class2 strict hc, hc]
  · simp [decodeUnder_of_class3 strict hc, hc]
  · simp [decodeUnder_of_class4 strict hc, hc]
  · simp [decodeUnder_of_class5 strict hc, hc, rejects_ite]
  · simp [decodeUnder_of_class6 strict hc, hc]
  · simp [decodeUnder_of_class7 strict hc, hc]
  · simp [decodeUnder_of_class8 strict hc, hc, rejects_class8]
  · simp [decodeUnder_of_class9 strict hc, hc, rejects_ite]
  · simp [decodeUnder_of_classA strict hc, hc]
  · simp [decodeUnder_of_classB strict hc, hc]
  · simp [decodeUnder_of_classC strict hc, hc]
  · simp [decodeUnder_of_classD strict hc, hc]
  · simp [decodeUnder_of_classE strict hc, hc, rejects_classE]
  · simp [decodeUnder_of_classF strict hc, hc, rejects_classF]

/-- Settles O1: the decoder evaluated on each word. -/
theorem specWordsDecode : Obligations.SpecWordsDecode := by
  unfold Obligations.SpecWordsDecode
  decide

end Sys2Proof
end


section
/-! PROOF. Ranges of memory that an instruction reads or writes (20_memory.md R51, R52; 43_index_memory.md R169), and the
instructions that access one: DRW, LD B, LD [I] and LD Vx, [I], each with an equation per outcome. -/

namespace Sys2Proof.Machine

/-! ### Ranges of bytes written -/

/-- The font ends more than 16 bytes, the longest range of an instruction, before the end of memory. -/
theorem font_far_below_end : Config.fontBase + 80 + 16 ≤ Config.memSize := by decide

/-- A range that leaves memory raises at its lowest byte outside, whatever the policy: it lies above the font. -/
theorem writeBytesUnder_beyond (p : Config.FontWritePolicy) (m : Memory) {a : Nat} {bs : List Byte} (hlen : bs.length ≤ 16)
    (hpos : 0 < bs.length) (h : Config.memSize < a + bs.length) :
    writeBytesUnder p m a bs = .error ⟨.memOobWrite, max a Config.memSize⟩ := by
  have hfirst : a + (max a Config.memSize - a) = max a Config.memSize := by omega
  have hstorable : Storable a (max a Config.memSize - a) := by
    intro j hj
    have hfar := font_far_below_end
    refine ⟨by omega, Bool.eq_false_iff.2 fun hf => ?_⟩
    rw [isFontAddr_iff] at hf
    omega
  have := writeBytesUnder_oob p (m := m) hstorable (bs := bs) (by omega) (by omega)
  rwa [hfirst] at this

/-- A range with a font byte in it raises at its lowest font byte, under the policy FATAL. -/
theorem writeBytesUnder_onFont (m : Memory) {a : Nat} {bs : List Byte}
    (h : ∃ k, k < bs.length ∧ isFontAddr (a + k) = true) :
    writeBytesUnder .fatal m a bs = .error ⟨.fontWrite, max a Config.fontBase⟩ := by
  obtain ⟨k, hk, hf⟩ := h
  rw [isFontAddr_iff] at hf
  have hfar := font_far_below_end
  have hfirst : a + (max a Config.fontBase - a) = max a Config.fontBase := by omega
  have hstorable : Storable a (max a Config.fontBase - a) := by
    intro j hj
    refine ⟨by omega, Bool.eq_false_iff.2 fun hf => ?_⟩
    rw [isFontAddr_iff] at hf
    omega
  have := writeBytesUnder_font (m := m) hstorable (bs := bs) (by omega) (by omega) ((isFontAddr_iff _).2 (by omega))
  rwa [hfirst] at this

/-- A range that cannot be stored leaves memory or holds a font byte. -/
theorem storable_or_not (a n : Nat) :
    Storable a n ∨ (0 < n ∧ Config.memSize < a + n) ∨ ∃ k, k < n ∧ isFontAddr (a + k) = true := by
  by_cases hend : 0 < n ∧ Config.memSize < a + n
  · exact .inr (.inl hend)
  by_cases hfont : ∃ k, k < n ∧ isFontAddr (a + k) = true
  · exact .inr (.inr hfont)
  · exact .inl fun k hk => ⟨by omega, Bool.eq_false_iff.2 fun hf => hfont ⟨k, hk, hf⟩⟩

variable (s : State) (x y : RegIdx)

/-! ### LD B and LD [I] -/

@[simp] theorem bcdDigits_length (b : Byte) : (bcdDigits b).length = 3 := rfl

theorem exec_ldB_storable (h : Storable s.i.toNat 3) :
    exec (.ldB x) s = .next (s.setMem (Memory.place s.mem s.i.toNat (bcdDigits (s.getV x)))) := by
  rw [exec_ldB, storeBcdUnder, writeBytesUnder_of_storable _ h, commit_ok]

theorem exec_ldB_beyond (h : Config.memSize < s.i.toNat + 3) :
    exec (.ldB x) s =
      .next (fatalPath s s.pc0 (some (encode (.ldB x))) ⟨.memOobWrite, max s.i.toNat Config.memSize⟩) := by
  rw [exec_ldB, storeBcdUnder, writeBytesUnder_beyond _ _ (by simp) (by simp) h, commit_error]

theorem exec_ldB_onFont (h : ∃ k, k < 3 ∧ isFontAddr (s.i.toNat + k) = true) :
    exec (.ldB x) s =
      .next (fatalPath s s.pc0 (some (encode (.ldB x))) ⟨.fontWrite, max s.i.toNat Config.fontBase⟩) := by
  rw [exec_ldB, storeBcdUnder, Config.fontWritePolicy,
    writeBytesUnder_onFont (bs := bcdDigits (s.getV x)) _ h, commit_error]

theorem exec_store_storable (h : Storable s.i.toNat (x.val + 1)) :
    exec (.store x) s = .next (s.setMem (Memory.place s.mem s.i.toNat (s.regsUpTo x))) := by
  rw [← s.regsUpTo_length x] at h
  rw [exec_store, storeRegsUnder, writeBytesUnder_of_storable _ h, commit_ok]
  rfl

theorem exec_store_beyond (h : Config.memSize < s.i.toNat + (x.val + 1)) :
    exec (.store x) s =
      .next (fatalPath s s.pc0 (some (encode (.store x))) ⟨.memOobWrite, max s.i.toNat Config.memSize⟩) := by
  rw [exec_store, storeRegsUnder,
    writeBytesUnder_beyond _ _ (by simp) (by simp) (by simpa using h), commit_error]

theorem exec_store_onFont (h : ∃ k, k < x.val + 1 ∧ isFontAddr (s.i.toNat + k) = true) :
    exec (.store x) s =
      .next (fatalPath s s.pc0 (some (encode (.store x))) ⟨.fontWrite, max s.i.toNat Config.fontBase⟩) := by
  rw [exec_store, storeRegsUnder, Config.fontWritePolicy, writeBytesUnder_onFont _ (by simpa using h), commit_error]

/-! ### LD Vx, [I] and DRW -/

/-- The bytes at I that LD Vx, [I] and DRW read. -/
def State.bytesAtI (n : Nat) : List Byte := (List.range n).map fun k => Memory.read s.mem (s.i.toNat + k)

@[simp] theorem State.bytesAtI_length (n : Nat) : (s.bytesAtI n).length = n := by simp [State.bytesAtI]

theorem State.bytesAtI_getD {n k : Nat} (h : k < n) : (s.bytesAtI n).getD k 0 = Memory.read s.mem (s.i.toNat + k) := by
  simp [State.bytesAtI, h]

theorem setVFrom_setI_self (k : Nat) (bs : List Byte) : (s.setVFrom k bs).setI s.i = s.setVFrom k bs := by
  rw [State.setVFrom_eq]
  rfl

theorem exec_load_inside (h : s.i.toNat + (x.val + 1) ≤ Config.memSize) :
    exec (.load x) s = .next (s.setVFrom 0 (s.bytesAtI (x.val + 1))) := by
  rw [exec_load, loadRegsUnder, readBytes_of_le _ (.inr h), commit_ok]
  exact congrArg _ (setVFrom_setI_self s 0 _)

theorem exec_load_beyond (h : Config.memSize < s.i.toNat + (x.val + 1)) :
    exec (.load x) s =
      .next (fatalPath s s.pc0 (some (encode (.load x))) ⟨.memOobRead, max s.i.toNat Config.memSize⟩) := by
  rw [exec_load, loadRegsUnder, readBytes_of_gt _ (Nat.succ_pos _) h, commit_error]

/-- The display and the collision that a draw of `n` rows at I leaves. -/
def State.drawnAtI (edge : Config.DrawEdge) (n : Nat) : Display × Bool :=
  drawSprite edge (s.getV x).toNat (s.getV y).toNat (s.bytesAtI n) s.display

/-- The state a draw of `n` rows at I leaves: the display and the flag set, VF last (R111). -/
def State.afterDraw (edge : Config.DrawEdge) (n : Nat) : State :=
  (s.setDisplay (s.drawnAtI x y edge n).1).setV vf (flagByte (s.drawnAtI x y edge n).2)

theorem drawUnder_inside (edge : Config.DrawEdge) {n : Nat} (h : n = 0 ∨ s.i.toNat + n ≤ Config.memSize) :
    drawUnder edge x y n s = .ok (s.afterDraw x y edge n) := by
  rw [drawUnder, readBytes_of_le _ h]
  rfl

theorem exec_drw_inside {n : Fin 16} (h : n.val = 0 ∨ s.i.toNat + n.val ≤ Config.memSize) :
    exec (.drw x y n) s = .next (s.afterDraw x y .wrap n.val) := by
  rw [exec_drw, Config.drawEdge, drawUnder_inside s x y .wrap h, commit_ok]

theorem exec_drw_beyond {n : Fin 16} (hn : 0 < n.val) (h : Config.memSize < s.i.toNat + n.val) :
    exec (.drw x y n) s =
      .next (fatalPath s s.pc0 (some (encode (.drw x y n))) ⟨.memOobRead, max s.i.toNat Config.memSize⟩) := by
  rw [exec_drw, drawUnder, readBytes_of_gt _ hn h, commit_error]

end Sys2Proof.Machine
end


section
/-! PROOF. What an instruction can do to the state, said once (`Effect`), and the whole-machine rules that follow: fatal errors
(60_exceptions.md sections 1 and 2) and the writers of each unit (10_state.md sections 2 to 6). -/

namespace Sys2Proof

/-- The general register that an instruction other than FX65 names as its destination and writes without a flag
(30_encoding.md R84). -/
def Instr.destination : Instr → Option RegIdx
  | .ldByte x _ | .addByte x _ | .ldReg x _ | .orReg x _ | .andReg x _ | .xorReg x _ | .rnd x _ | .ldVxDt x
  | .ldVxK x => some x
  | _ => none

/-- The instructions that write a result and then a flag (42_alu.md R138). -/
def Instr.writesFlag : Instr → Bool
  | .addReg _ _ | .subReg _ _ | .shr _ _ | .subn _ _ | .shl _ _ => true
  | _ => false

/-- The instructions that write I (43_index_memory.md R170 to R172). -/
def Instr.writesIndex : Instr → Bool
  | .ldI _ | .addI _ | .ldF _ => true
  | _ => false

namespace Machine

/-- The fatal errors an instruction can raise from `s`, with their addresses (60_exceptions.md R220, section 1). -/
inductive Raises (s : State) : Instr → Raise → Prop
  | overflow (nnn : BitVec 12) (h : s.sp.val = Config.stackCapacity) : Raises s (.call nnn) ⟨.stackOverflow, 0⟩
  | underflow (z : BitVec 4) (h : s.sp.val = 0) : Raises s (.ret z) ⟨.stackUnderflow, 0⟩
  | drw (x y : RegIdx) (n : Fin 16) : Raises s (.drw x y n) ⟨.memOobRead, max s.i.toNat Config.memSize⟩
  | load (x : RegIdx) : Raises s (.load x) ⟨.memOobRead, max s.i.toNat Config.memSize⟩
  | ldB (x : RegIdx) : Raises s (.ldB x) ⟨.memOobWrite, max s.i.toNat Config.memSize⟩
  | store (x : RegIdx) : Raises s (.store x) ⟨.memOobWrite, max s.i.toNat Config.memSize⟩
  | ldBFont (x : RegIdx) : Raises s (.ldB x) ⟨.fontWrite, max s.i.toNat Config.fontBase⟩
  | storeFont (x : RegIdx) : Raises s (.store x) ⟨.fontWrite, max s.i.toNat Config.fontBase⟩

/-- What an instruction can leave of the state `s` it runs in: its own writes, or the fatal path. -/
inductive Effect (s : State) : Instr → State → Prop
  | pc (i : Instr) (p : Word) : Effect s i (s.setPc p)
  | reg {i : Instr} {x : RegIdx} (h : i.destination = some x) (b : Byte) : Effect s i (s.setV x b)
  | flag {i : Instr} (h : i.writesFlag = true) (x : RegIdx) (r f : Byte) : Effect s i (s.setResultFlag x r f)
  | index {i : Instr} (h : i.writesIndex = true) (w : Word) : Effect s i (s.setI w)
  | cls (z : BitVec 4) : Effect s (.cls z) (s.setDisplay Display.blank)
  | drw (x y : RegIdx) (n : Fin 16) (d : Display) (f : Byte) : Effect s (.drw x y n) ((s.setDisplay d).setV vf f)
  | delay (x : RegIdx) : Effect s (.ldDtVx x) (s.setDt (s.getV x))
  | sound (x : RegIdx) : Effect s (.ldStVx x) (s.setSt (s.getV x))
  | call (nnn : BitVec 12) (k : Vector Word Config.stackCapacity) (n : Fin (Config.stackCapacity + 1)) (p : Word) :
      Effect s (.call nnn) ((s.setStack k n).setPc p)
  | ret (z : BitVec 4) (n : Fin (Config.stackCapacity + 1)) (p : Word) :
      Effect s (.ret z) ((s.setStack s.stack n).setPc p)
  | ldB (x : RegIdx) (h : Storable s.i.toNat 3) :
      Effect s (.ldB x) (s.setMem (Memory.place s.mem s.i.toNat (bcdDigits (s.getV x))))
  | store (x : RegIdx) (h : Storable s.i.toNat (x.val + 1)) :
      Effect s (.store x) (s.setMem (Memory.place s.mem s.i.toNat (s.regsUpTo x)))
  | load (x : RegIdx) : Effect s (.load x) (s.setVFrom 0 (s.bytesAtI (x.val + 1)))
  | fatal {i : Instr} {e : Raise} (h : Raises s i e) : Effect s i (fatalPath s s.pc0 (some (encode i)) e)

/-- An instruction answers a next state, which has its effect. -/
def HasEffect (s : State) (i : Instr) : Prop := ∃ t, exec i s = .next t ∧ Effect s i t

/-- A skip has an effect on PC at most. -/
theorem hasEffect_skip {s : State} {i : Instr} {b : Bool} (h : exec i s = .next (skipIf b s)) : HasEffect s i :=
  ⟨_, h.trans (congrArg _ (skipIf_eq_setPc b s)), .pc i _⟩

/-- OR, AND and XOR under the spec's LOGIC_VF_RESET write their destination only. -/
theorem hasEffect_logic {s : State} {i : Instr} {f : Byte → Byte → Byte} {x y : RegIdx} (hx : i.destination = some x)
    (h : exec i s = .next (logicUnder Config.logicVfReset f x y s)) : HasEffect s i :=
  ⟨_, h.trans (congrArg _ (logicUnder_false f x y s)), .reg hx _⟩

theorem hasEffect_call (s : State) (nnn : BitVec 12) : HasEffect s (.call nnn) := by
  by_cases h : s.sp.val < Config.stackCapacity
  · exact ⟨_, exec_call s nnn h, .call nnn _ _ _⟩
  · have hfull : s.sp.val = Config.stackCapacity := by omega
    exact ⟨_, exec_call_full s nnn hfull, .fatal (.overflow nnn hfull)⟩

theorem hasEffect_ret (s : State) (z : BitVec 4) : HasEffect s (.ret z) := by
  by_cases h : 0 < s.sp.val
  · exact ⟨_, exec_ret s z h, .ret z _ _⟩
  · have hempty : s.sp.val = 0 := by omega
    exact ⟨_, exec_ret_empty s z hempty, .fatal (.underflow z hempty)⟩

theorem hasEffect_drw (s : State) (x y : RegIdx) (n : Fin 16) : HasEffect s (.drw x y n) := by
  by_cases h : n.val = 0 ∨ s.i.toNat + n.val ≤ Config.memSize
  · exact ⟨_, exec_drw_inside s x y h, .drw x y n _ _⟩
  · exact ⟨_, exec_drw_beyond s x y (by omega) (by omega), .fatal (.drw x y n)⟩

theorem hasEffect_ldVxK (s : State) (x : RegIdx) : HasEffect s (.ldVxK x) := by
  cases h : lowestKey s.keys with
  | some k => exact ⟨_, exec_ldVxK_pressed s x h, .reg rfl _⟩
  | none => exact ⟨_, exec_ldVxK_waiting s x h, .pc _ _⟩

theorem hasEffect_ldB (s : State) (x : RegIdx) : HasEffect s (.ldB x) := by
  obtain h | ⟨-, h⟩ | h := storable_or_not s.i.toNat 3
  · exact ⟨_, exec_ldB_storable s x h, .ldB x h⟩
  · exact ⟨_, exec_ldB_beyond s x h, .fatal (.ldB x)⟩
  · exact ⟨_, exec_ldB_onFont s x h, .fatal (.ldBFont x)⟩

theorem hasEffect_store (s : State) (x : RegIdx) : HasEffect s (.store x) := by
  obtain h | ⟨-, h⟩ | h := storable_or_not s.i.toNat (x.val + 1)
  · exact ⟨_, exec_store_storable s x h, .store x h⟩
  · exact ⟨_, exec_store_beyond s x h, .fatal (.store x)⟩
  · exact ⟨_, exec_store_onFont s x h, .fatal (.storeFont x)⟩

theorem hasEffect_load (s : State) (x : RegIdx) : HasEffect s (.load x) := by
  by_cases h : s.i.toNat + (x.val + 1) ≤ Config.memSize
  · exact ⟨_, exec_load_inside s x h, .load x⟩
  · exact ⟨_, exec_load_beyond s x (by omega), .fatal (.load x)⟩

/-- Every instruction in every state has an effect. -/
theorem exec_hasEffect (i : Instr) (s : State) : HasEffect s i := by
  cases i with
  | cls z => exact ⟨_, exec_cls s z, .cls z⟩
  | ret z => exact hasEffect_ret s z
  | jp nnn => exact ⟨_, exec_jp s nnn, .pc _ _⟩
  | call nnn => exact hasEffect_call s nnn
  | seByte x nn => exact hasEffect_skip (exec_seByte s x nn)
  | sneByte x nn => exact hasEffect_skip (exec_sneByte s x nn)
  | seReg x y n => exact hasEffect_skip (exec_seReg s x y n)
  | ldByte x nn => exact ⟨_, exec_ldByte s x nn, .reg rfl _⟩
  | addByte x nn => exact ⟨_, exec_addByte s x nn, .reg rfl _⟩
  | ldReg x y => exact ⟨_, exec_ldReg s x y, .reg rfl _⟩
  | orReg x y => exact hasEffect_logic rfl (exec_orReg s x y)
  | andReg x y => exact hasEffect_logic rfl (exec_andReg s x y)
  | xorReg x y => exact hasEffect_logic rfl (exec_xorReg s x y)
  | addReg x y => exact ⟨_, exec_addReg s x y, .flag rfl _ _ _⟩
  | subReg x y => exact ⟨_, exec_subReg s x y, .flag rfl _ _ _⟩
  | shr x y => exact ⟨_, exec_shr s x y, .flag rfl _ _ _⟩
  | subn x y => exact ⟨_, exec_subn s x y, .flag rfl _ _ _⟩
  | shl x y => exact ⟨_, exec_shl s x y, .flag rfl _ _ _⟩
  | sneReg x y n => exact hasEffect_skip (exec_sneReg s x y n)
  | ldI nnn => exact ⟨_, exec_ldI s nnn, .index rfl _⟩
  | jpV0 nnn => exact ⟨_, exec_jpV0 s nnn, .pc _ _⟩
  | rnd x nn => exact ⟨_, exec_rnd s x nn, .reg rfl _⟩
  | drw x y n => exact hasEffect_drw s x y n
  | skp x => exact hasEffect_skip (exec_skp s x)
  | sknp x => exact hasEffect_skip (exec_sknp s x)
  | ldVxDt x => exact ⟨_, exec_ldVxDt s x, .reg rfl _⟩
  | ldVxK x => exact hasEffect_ldVxK s x
  | ldDtVx x => exact ⟨_, exec_ldDtVx s x, .delay x⟩
  | ldStVx x => exact ⟨_, exec_ldStVx s x, .sound x⟩
  | addI x => exact ⟨_, exec_addI s x, .index rfl _⟩
  | ldF x => exact ⟨_, exec_ldF s x, .index rfl _⟩
  | ldB x => exact hasEffect_ldB s x
  | store x => exact hasEffect_store s x
  | load x => exact hasEffect_load s x

/-- The next state of an instruction is one its effect allows. -/
theorem effect_of_exec {i : Instr} {s t : State} (h : exec i s = .next t) : Effect s i t := by
  obtain ⟨u, hu, heffect⟩ := exec_hasEffect i s
  cases hu.symm.trans h
  exact heffect

/-! ### Fatal errors -/

/-- RS and FR change on the fatal path only. -/
theorem Effect.keeps_rs_fr {s t : State} {i : Instr} (h : Effect s i t) :
    (t.rs = s.rs ∧ t.fr = s.fr) ∨ ∃ e, Raises s i e ∧ t = fatalPath s s.pc0 (some (encode i)) e := by
  cases h with
  | fatal h => exact .inr ⟨_, h, rfl⟩
  | load x => rw [State.setVFrom_eq]; exact .inl ⟨rfl, rfl⟩
  | _ => exact .inl ⟨rfl, rfl⟩

/-- Settles O50: the fatal path of an instruction records its whole word and pc0, and changes PC and RS beside that. -/
theorem fatalErrorsArePrecise : Obligations.FatalErrorsArePrecise := by
  unfold Obligations.FatalErrorsArePrecise
  intro i s
  obtain ⟨t, ht, heffect⟩ := exec_hasEffect i s
  refine ⟨t, ht, heffect.keeps_rs_fr.imp_right ?_⟩
  rintro ⟨e, -, rfl⟩
  exact ⟨e.kind, e.addr, rfl⟩

/-- An address of I or of a constant of memory fits into FR.addr. -/
theorem toNat_addr_max (i : Word) {n : Nat} (hn : n ≤ Config.memSize) :
    (BitVec.ofNat 17 (max i.toNat n)).toNat = max i.toNat n := by
  have hi : i.toNat < 65536 := i.isLt
  have hsize : n ≤ 4096 := hn
  rw [BitVec.toNat_ofNat, Nat.mod_eq_of_lt (by omega)]

/-- Settles O51: only the fatal path makes FR valid, and each raise has its instruction and its address. -/
theorem eachFatalErrorHasItsInstructions : Obligations.EachFatalErrorHasItsInstructions := by
  unfold Obligations.EachFatalErrorHasItsInstructions
  intro i s t hsafe hexec hunsafe
  obtain ⟨-, hfr⟩ | ⟨e, he, rfl⟩ := (effect_of_exec hexec).keeps_rs_fr
  · exact absurd ((congrArg FaultRecord.valid hfr).trans hsafe) hunsafe
  have hmem := toNat_addr_max s.i (Nat.le_refl Config.memSize)
  have hfont := toNat_addr_max s.i (n := Config.fontBase) (by decide)
  cases he with
  | overflow nnn h => exact .inl ⟨rfl, rfl, ⟨nnn, rfl⟩, h⟩
  | underflow z h => exact .inr (.inl ⟨rfl, rfl, ⟨z, rfl⟩, h⟩)
  | drw x y n => exact .inr (.inr (.inl ⟨rfl, hmem, .inl ⟨x, y, n, rfl⟩⟩))
  | load x => exact .inr (.inr (.inl ⟨rfl, hmem, .inr ⟨x, rfl⟩⟩))
  | ldB x => exact .inr (.inr (.inr ⟨.inl ⟨rfl, hmem⟩, .inl ⟨x, rfl⟩⟩))
  | store x => exact .inr (.inr (.inr ⟨.inl ⟨rfl, hmem⟩, .inr ⟨x, rfl⟩⟩))
  | ldBFont x => exact .inr (.inr (.inr ⟨.inr ⟨rfl, hfont⟩, .inl ⟨x, rfl⟩⟩))
  | storeFont x => exact .inr (.inr (.inr ⟨.inr ⟨rfl, hfont⟩, .inr ⟨x, rfl⟩⟩))

/-! ### The writers of each unit -/

theorem writesIndex_iff (i : Instr) :
    i.writesIndex = true ↔ (∃ nnn, i = .ldI nnn) ∨ (∃ x, i = .addI x) ∨ ∃ x, i = .ldF x := by
  cases i <;> simp [Instr.writesIndex]

theorem writesFlag_iff (i : Instr) :
    i.writesFlag = true ↔
      ∃ x y, i = .addReg x y ∨ i = .subReg x y ∨ i = .shr x y ∨ i = .subn x y ∨ i = .shl x y := by
  cases i <;> simp [Instr.writesFlag]

/-- Settles O52: an effect changes no unit but those of its instruction. -/
theorem eachUnitHasItsWriters : Obligations.EachUnitHasItsWriters := by
  unfold Obligations.EachUnitHasItsWriters
  intro i s t hexec
  cases effect_of_exec hexec with
  | cls z => simp
  | drw x y n d f => simp
  | delay x => simp
  | sound x => simp
  | call nnn k n p => simp
  | ret z n p => simp
  | ldB x h => simp
  | store x h => simp
  | index h w => simpa using fun _ => (writesIndex_iff i).1 h
  | load x => rw [State.setVFrom_eq]; simp
  | fatal h => simp [fatalPath]
  | pc p => simp
  | reg h b => simp
  | flag h x r f => simp [State.setResultFlag]

/-- The instructions that can name VF as their destination and write it without a flag (FX65 apart). -/
theorem destination_eq_vf {i : Instr} (h : i.destination = some vf) :
    (∃ nn, i = .ldByte vf nn ∨ i = .addByte vf nn ∨ i = .rnd vf nn) ∨
    (∃ y, i = .ldReg vf y ∨ i = .orReg vf y ∨ i = .andReg vf y ∨ i = .xorReg vf y) ∨
    i = .ldVxDt vf ∨ i = .ldVxK vf := by
  cases i <;> simp_all [Instr.destination]

/-- FX65 reaches VF only with X = F. -/
theorem getV_vf_setVFrom_bytesAtI (s : State) {x : RegIdx} (hx : x ≠ vf) :
    (s.setVFrom 0 (s.bytesAtI (x.val + 1))).getV vf = s.getV vf := by
  have hlen : (s.bytesAtI (x.val + 1)).length = x.val + 1 := s.bytesAtI_length _
  have hlt : x.val ≠ vf.val := fun h => hx (Fin.ext h)
  have hvf : vf.val = 15 := rfl
  rw [State.getV_setVFrom s (by omega), if_neg (by omega)]

/-- Settles O53: an effect that changes VF is a flag, a draw, a load that reaches it, or a write that names it. -/
theorem vfHasItsWriters : Obligations.VfHasItsWriters := by
  unfold Obligations.VfHasItsWriters
  intro i s t hexec hvf
  cases effect_of_exec hexec with
  | flag h x r f => exact .inl ((writesFlag_iff i).1 h)
  | drw x y n d f => exact .inr (.inl ⟨x, y, n, rfl⟩)
  | @reg _ x h b =>
    obtain rfl : x = vf := by_contra fun hx => hvf (s.getV_setV_ne b (Ne.symm hx))
    obtain himm | hreg | htimer | hkey := destination_eq_vf h
    · exact .inr (.inr (.inl himm))
    · exact .inr (.inr (.inr (.inl hreg)))
    · exact .inr (.inr (.inr (.inr (.inl htimer))))
    · exact .inr (.inr (.inr (.inr (.inr (.inl hkey)))))
  | load x =>
    obtain rfl : x = vf := by_contra fun hx => hvf (getV_vf_setVFrom_bytesAtI s hx)
    exact .inr (.inr (.inr (.inr (.inr (.inr rfl)))))
  | _ => exact absurd rfl hvf

end Machine

end Sys2Proof
end


section
/-! PROOF. No instruction but RND depends on the source of the random byte (42_alu.md R151, 60_exceptions.md R248). -/

namespace Sys2Proof.Machine

/-- `i` from `s` answers the same next state whatever the source of the random byte. -/
def IgnoresDraw (i : Instr) (s : State) : Prop :=
  ∃ t, exec i s = .next t ∧ ∀ r n, exec i (s.setDraw r n) = .next (t.setDraw r n)

/-- An instruction whose next state is a function of the state that commutes with a change of the source. -/
theorem ignoresDraw_of_next {i : Instr} {s : State} {f : State → State} (hexec : ∀ u, exec i u = .next (f u))
    (hf : ∀ r n, f (s.setDraw r n) = (f s).setDraw r n) : IgnoresDraw i s :=
  ⟨f s, hexec s, fun r n => (hexec _).trans (congrArg _ (hf r n))⟩

theorem skipIf_setDraw (b : Bool) (s : State) (r : Option Byte) (n : Nat) :
    skipIf b (s.setDraw r n) = (skipIf b s).setDraw r n := by
  cases b <;> rfl

theorem setVFrom_setDraw (s : State) (k : Nat) (bs : List Byte) (r : Option Byte) (n : Nat) :
    (s.setDraw r n).setVFrom k bs = (s.setVFrom k bs).setDraw r n := by
  induction bs generalizing s k with
  | nil => rfl
  | cons b bs ih =>
    by_cases h : k < 16
    · simp only [State.setVFrom, h, dite_true]
      exact ih (s.setV ⟨k, h⟩ b) (k + 1)
    · simp only [State.setVFrom, h, dite_false]

theorem getVFrom_setDraw (s : State) (k m : Nat) (r : Option Byte) (n : Nat) :
    (s.setDraw r n).getVFrom k m = s.getVFrom k m := by
  induction m generalizing k with
  | zero => rfl
  | succ m ih => simp only [State.getVFrom, State.setDraw_getV, ih]

theorem ignoresDraw_call (s : State) (nnn : BitVec 12) : IgnoresDraw (.call nnn) s := by
  by_cases h : s.sp.val < Config.stackCapacity
  · exact ⟨_, exec_call s nnn h, fun r n => exec_call (s.setDraw r n) nnn h⟩
  · have hfull : s.sp.val = Config.stackCapacity := by omega
    exact ⟨_, exec_call_full s nnn hfull, fun r n => exec_call_full (s.setDraw r n) nnn hfull⟩

theorem ignoresDraw_ret (s : State) (z : BitVec 4) : IgnoresDraw (.ret z) s := by
  by_cases h : 0 < s.sp.val
  · exact ⟨_, exec_ret s z h, fun r n => exec_ret (s.setDraw r n) z h⟩
  · have hempty : s.sp.val = 0 := by omega
    exact ⟨_, exec_ret_empty s z hempty, fun r n => exec_ret_empty (s.setDraw r n) z hempty⟩

theorem ignoresDraw_drw (s : State) (x y : RegIdx) (k : Fin 16) : IgnoresDraw (.drw x y k) s := by
  by_cases h : k.val = 0 ∨ s.i.toNat + k.val ≤ Config.memSize
  · exact ⟨_, exec_drw_inside s x y h, fun r n => exec_drw_inside (s.setDraw r n) x y h⟩
  · have hpos : 0 < k.val := by omega
    have hbeyond : Config.memSize < s.i.toNat + k.val := by omega
    exact ⟨_, exec_drw_beyond s x y hpos hbeyond, fun r n => exec_drw_beyond (s.setDraw r n) x y hpos hbeyond⟩

theorem ignoresDraw_ldVxK (s : State) (x : RegIdx) : IgnoresDraw (.ldVxK x) s := by
  cases h : lowestKey s.keys with
  | some k => exact ⟨_, exec_ldVxK_pressed s x h, fun r n => exec_ldVxK_pressed (s.setDraw r n) x h⟩
  | none => exact ⟨_, exec_ldVxK_waiting s x h, fun r n => exec_ldVxK_waiting (s.setDraw r n) x h⟩

theorem ignoresDraw_ldB (s : State) (x : RegIdx) : IgnoresDraw (.ldB x) s := by
  obtain h | ⟨-, h⟩ | h := storable_or_not s.i.toNat 3
  · exact ⟨_, exec_ldB_storable s x h, fun r n => exec_ldB_storable (s.setDraw r n) x h⟩
  · exact ⟨_, exec_ldB_beyond s x h, fun r n => exec_ldB_beyond (s.setDraw r n) x h⟩
  · exact ⟨_, exec_ldB_onFont s x h, fun r n => exec_ldB_onFont (s.setDraw r n) x h⟩

theorem ignoresDraw_store (s : State) (x : RegIdx) : IgnoresDraw (.store x) s := by
  obtain h | ⟨-, h⟩ | h := storable_or_not s.i.toNat (x.val + 1)
  · refine ⟨_, exec_store_storable s x h, fun r n => (exec_store_storable (s.setDraw r n) x h).trans ?_⟩
    rw [State.regsUpTo, getVFrom_setDraw]
    rfl
  · exact ⟨_, exec_store_beyond s x h, fun r n => exec_store_beyond (s.setDraw r n) x h⟩
  · exact ⟨_, exec_store_onFont s x h, fun r n => exec_store_onFont (s.setDraw r n) x h⟩

theorem ignoresDraw_load (s : State) (x : RegIdx) : IgnoresDraw (.load x) s := by
  by_cases h : s.i.toNat + (x.val + 1) ≤ Config.memSize
  · exact ⟨_, exec_load_inside s x h, fun r n =>
      (exec_load_inside (s.setDraw r n) x h).trans (congrArg _ (setVFrom_setDraw s 0 _ r n))⟩
  · have hbeyond : Config.memSize < s.i.toNat + (x.val + 1) := by omega
    exact ⟨_, exec_load_beyond s x hbeyond, fun r n => exec_load_beyond (s.setDraw r n) x hbeyond⟩

theorem exec_ignoresDraw {i : Instr} (h : ∀ x nn, i ≠ .rnd x nn) (s : State) : IgnoresDraw i s := by
  cases i with
  | rnd x nn => exact absurd rfl (h x nn)
  | ret z => exact ignoresDraw_ret s z
  | call nnn => exact ignoresDraw_call s nnn
  | drw x y n => exact ignoresDraw_drw s x y n
  | ldVxK x => exact ignoresDraw_ldVxK s x
  | ldB x => exact ignoresDraw_ldB s x
  | store x => exact ignoresDraw_store s x
  | load x => exact ignoresDraw_load s x
  | seByte x nn => exact ignoresDraw_of_next (fun u => exec_seByte u x nn) fun _ _ => skipIf_setDraw _ s _ _
  | sneByte x nn => exact ignoresDraw_of_next (fun u => exec_sneByte u x nn) fun _ _ => skipIf_setDraw _ s _ _
  | seReg x y n => exact ignoresDraw_of_next (fun u => exec_seReg u x y n) fun _ _ => skipIf_setDraw _ s _ _
  | sneReg x y n => exact ignoresDraw_of_next (fun u => exec_sneReg u x y n) fun _ _ => skipIf_setDraw _ s _ _
  | skp x => exact ignoresDraw_of_next (fun u => exec_skp u x) fun _ _ => skipIf_setDraw _ s _ _
  | sknp x => exact ignoresDraw_of_next (fun u => exec_sknp u x) fun _ _ => skipIf_setDraw _ s _ _
  | cls z => exact ignoresDraw_of_next (fun u => exec_cls u z) fun _ _ => rfl
  | jp nnn => exact ignoresDraw_of_next (fun u => exec_jp u nnn) fun _ _ => rfl
  | jpV0 nnn => exact ignoresDraw_of_next (fun u => exec_jpV0 u nnn) fun _ _ => rfl
  | ldByte x nn => exact ignoresDraw_of_next (fun u => exec_ldByte u x nn) fun _ _ => rfl
  | addByte x nn => exact ignoresDraw_of_next (fun u => exec_addByte u x nn) fun _ _ => rfl
  | ldReg x y => exact ignoresDraw_of_next (fun u => exec_ldReg u x y) fun _ _ => rfl
  | orReg x y => exact ignoresDraw_of_next (fun u => exec_orReg u x y) fun _ _ => rfl
  | andReg x y => exact ignoresDraw_of_next (fun u => exec_andReg u x y) fun _ _ => rfl
  | xorReg x y => exact ignoresDraw_of_next (fun u => exec_xorReg u x y) fun _ _ => rfl
  | addReg x y => exact ignoresDraw_of_next (fun u => exec_addReg u x y) fun _ _ => rfl
  | subReg x y => exact ignoresDraw_of_next (fun u => exec_subReg u x y) fun _ _ => rfl
  | shr x y => exact ignoresDraw_of_next (fun u => exec_shr u x y) fun _ _ => rfl
  | subn x y => exact ignoresDraw_of_next (fun u => exec_subn u x y) fun _ _ => rfl
  | shl x y => exact ignoresDraw_of_next (fun u => exec_shl u x y) fun _ _ => rfl
  | ldI nnn => exact ignoresDraw_of_next (fun u => exec_ldI u nnn) fun _ _ => rfl
  | ldVxDt x => exact ignoresDraw_of_next (fun u => exec_ldVxDt u x) fun _ _ => rfl
  | ldDtVx x => exact ignoresDraw_of_next (fun u => exec_ldDtVx u x) fun _ _ => rfl
  | ldStVx x => exact ignoresDraw_of_next (fun u => exec_ldStVx u x) fun _ _ => rfl
  | addI x => exact ignoresDraw_of_next (fun u => exec_addI u x) fun _ _ => rfl
  | ldF x => exact ignoresDraw_of_next (fun u => exec_ldF u x) fun _ _ => rfl

/-- Settles O39: every other instruction answers a state that does not depend on the source of the random byte. -/
theorem onlyRndReadsTheRandomByte : Obligations.OnlyRndReadsTheRandomByte := by
  unfold Obligations.OnlyRndReadsTheRandomByte
  intro i s t r n hi hexec
  obtain ⟨u, hu, hdraw⟩ := exec_ignoresDraw hi s
  cases hu.symm.trans hexec
  exact hdraw r n

end Sys2Proof.Machine
end


section
/-! PROOF. The step event by event (60_exceptions.md R240 to R260, 70_reset_and_hazards.md R270), and the Cycle it runs in
RUNNING (30_encoding.md R90). -/

namespace Sys2Proof.Machine

variable {s t : State}

/-! ### Fetch, decode and execute -/

theorem fetchDecodeExecute_of_decode {w : Word} {i : Instr} (hf : fetch16 s.mem s.pc.toNat = .ok w)
    (hd : decode w = .ok i) : fetchDecodeExecute s = exec i (s.setPc (s.pc + 2)) := by
  simp only [fetchDecodeExecute, hf, hd]

theorem fetchDecodeExecute_of_reject {w : Word} {e : DecodeReject} (hf : fetch16 s.mem s.pc.toNat = .ok w)
    (hd : decode w = .error e) : fetchDecodeExecute s = .next (s.setPc (s.pc + 2)) := by
  simp only [fetchDecodeExecute, hf, hd]
  rfl

theorem fetchDecodeExecute_of_fetch_error {e : Raise} (hf : fetch16 s.mem s.pc.toNat = .error e) :
    fetchDecodeExecute s = .next (fatalPath s s.pc none e) := by
  simp only [fetchDecodeExecute, hf]

/-- The step of a Cycle event in RUNNING. -/
theorem step_cycle {r : Byte} {es : List Event} (hrs : s.rs = .running) (hs : s.inbox = .cycle r :: es) :
    step s = fetchDecodeExecute ((s.setInbox es).beginCycle (some r)) :=
  (step_of_cons hs).trans (runCycle_running (s := s.setInbox es) hrs (some r))

/-- The step of RUNNING with no event waiting (log 2). -/
theorem step_own_cycle (hrs : s.rs = .running) (hs : s.inbox = []) :
    step s = fetchDecodeExecute (s.beginCycle none) :=
  (step_of_empty hs).trans (runCycle_running hrs none)

/-- Settles O6: the fetch reads the two bytes, and the Cycle begins with the event's byte or with a free one. -/
theorem stepRunsTheDecodedInstruction : Obligations.StepRunsTheDecodedInstruction := by
  unfold Obligations.StepRunsTheDecodedInstruction
  intro s i hrs hpc hd
  have hf := fetch16_of_lt s.mem hpc
  refine ⟨fun hs => ?own, fun r es hs => ?event⟩
  case own => exact (step_own_cycle hrs hs).trans (fetchDecodeExecute_of_decode (s := s.beginCycle none) hf hd)
  case event =>
    exact (step_cycle hrs hs).trans
      (fetchDecodeExecute_of_decode (s := (s.setInbox es).beginCycle (some r)) hf hd)

/-- Settles O8: the fetch raises, and the fatal path of a Cycle without a word leaves PC where it is. -/
theorem fetchBeyondMemoryIsFatal : Obligations.FetchBeyondMemoryIsFatal := by
  unfold Obligations.FetchBeyondMemoryIsFatal
  intro s r es hrs hs hpc
  exact (step_cycle hrs hs).trans
    (fetchDecodeExecute_of_fetch_error (s := (s.setInbox es).beginCycle (some r)) (fetch16_of_ge s.mem hpc))

/-- Settles O9: a rejected word only moves PC on; under FATAL the fatal path takes that back. -/
theorem unknownOpcodeOnlyAdvancesPc : Obligations.UnknownOpcodeOnlyAdvancesPc := by
  unfold Obligations.UnknownOpcodeOnlyAdvancesPc
  refine ⟨fun s r es w e hrs hs hf hd => ?nop, fun s w => ?fatal⟩
  case nop =>
    exact (step_cycle hrs hs).trans
      (fetchDecodeExecute_of_reject (s := (s.setInbox es).beginCycle (some r)) hf hd)
  case fatal =>
    change Host.Outcome.next (fatalPath (s.setPc (s.pc + 2)) (s.setPc (s.pc + 2)).pc0 (some w) ⟨.unknownOpcode, 0⟩) = _
    rw [State.pc0_setPc_add_two]
    rfl

/-! ### A placed word -/

/-- The place of the word is inside memory, wherever PC is. -/
theorem fetchSite_inside (s : State) : (fetchSite s).toNat + 1 < Config.memSize := by
  unfold fetchSite
  split
  case isTrue h => exact h
  case isFalse => decide

/-- A word placed in memory is fetched. -/
theorem fetch16_place {m : Memory} (hm : Memory.wf m = true) {a : Nat} (ha : a + 1 < Config.memSize) (w : Word) :
    fetch16 (Memory.place m a (bytesOfWord w)) a = .ok w := by
  have hfit : a + (bytesOfWord w).length ≤ Config.memSize := ha
  have hhi : Memory.read (Memory.place m a (bytesOfWord w)) a = w.extractLsb 15 8 := by
    rw [Memory.read_place hm hfit]
    simp [bytesOfWord]
  have hlo : Memory.read (Memory.place m a (bytesOfWord w)) (a + 1) = w.extractLsb 7 0 := by
    rw [Memory.read_place hm hfit]
    simp [bytesOfWord]
  rw [fetch16_of_lt _ ha, hhi, hlo, wordOfBytes_bytesOfWord]

theorem withFetchWord_toNat (s : State) (w : Word) : s.withFetchWord 16 w.toNat = placeFetchWord s w := by
  have hw : BitVec.ofNat 16 (w.toNat % 2 ^ 16) = w := by
    rw [Nat.mod_eq_of_lt w.isLt, BitVec.ofNat_toNat, BitVec.setWidth_eq]
  rw [State.withFetchWord, hw]

/-- Settles O7: the next fetch reads the placed word, and the word of a well-formed instruction decodes to it. -/
theorem placedWordIsTheNextInstruction : Obligations.PlacedWordIsTheNextInstruction := by
  unfold Obligations.PlacedWordIsTheNextInstruction
  intro s i hm hwf
  have hfetch := fetch16_place hm (fetchSite_inside s) (encode i)
  have hdecode : decode (encode i) = .ok i := decodeOfEncodeIsTheInstruction Config.strictDecode i hwf
  have hfit : (fetchSite s).toNat + (bytesOfWord (encode i)).length ≤ Config.memSize := fetchSite_inside s
  refine ⟨fun h => if_pos h, fun h => if_neg (Nat.not_lt.2 h),
    ((placeFetchWord s (encode i)).beginCycle none).setPc (fetchSite s + 2), ?step, rfl, hfetch, ?frame, rfl⟩
  case step =>
    rw [withFetchWord_toNat, step_own_cycle rfl rfl]
    exact fetchDecodeExecute_of_decode (s := (placeFetchWord s (encode i)).beginCycle none) hfetch hdecode
  case frame =>
    intro a ha
    exact (Memory.read_place hm hfit a).trans (if_neg ha)

/-! ### Tick, SetKeys, Quit and Init -/

theorem toNat_timerTick (b : Byte) : (timerTick b).toNat = b.toNat - 1 := by
  unfold timerTick
  split
  case isTrue h => simp [h]
  case isFalse h =>
    have hpos : b.toNat ≠ 0 := fun h0 => h (BitVec.eq_of_toNat_eq h0)
    have hone : (1 : Byte).toNat ≤ b.toNat := Nat.pos_of_ne_zero hpos
    exact BitVec.toNat_sub_of_le (BitVec.le_def.2 hone)

theorem runTick_of_ne_quit (h : s.rs ≠ .quit) : runTick s = (s.setDt (timerTick s.dt)).setSt (timerTick s.st) := by
  unfold runTick
  split <;> simp_all

theorem runTick_of_quit (h : s.rs = .quit) : runTick s = s := by
  rw [runTick, h]

theorem runSetKeys_of_ne_quit (h : s.rs ≠ .quit) (k : Keypad) : runSetKeys k s = s.setKeypad k := by
  unfold runSetKeys
  split <;> simp_all

theorem runSetKeys_of_quit (h : s.rs = .quit) (k : Keypad) : runSetKeys k s = s := by
  rw [runSetKeys, h]

theorem runPauseToggle_of_quit (h : s.rs = .quit) : runPauseToggle s = s := by
  rw [runPauseToggle, h]

/-- A Tick outside QUIT: each timer goes down by one, floor 0, and nothing else changes but the inbox. -/
theorem step_tick {es : List Event} (hrs : s.rs ≠ .quit) (hs : s.inbox = .tick :: es) :
    step s = .next { s with inbox := es, dt := timerTick s.dt, st := timerTick s.st } :=
  (step_of_cons hs).trans (congrArg _ (runTick_of_ne_quit (s := s.setInbox es) hrs))

/-- Settles O11: outside QUIT the Tick steps both timers; in QUIT only the event is taken. -/
theorem tickDecrementsEachNonzeroTimer : Obligations.TickDecrementsEachNonzeroTimer := by
  unfold Obligations.TickDecrementsEachNonzeroTimer
  refine fun s es hs => ⟨fun hrs => ?live, fun hrs => ?quit⟩
  case live => exact ⟨_, step_tick hrs hs, toNat_timerTick s.dt, toNat_timerTick s.st, rfl⟩
  case quit => exact (step_of_cons hs).trans (congrArg _ (runTick_of_quit (s := s.setInbox es) hrs))

/-- Settles O12, by induction on the number of Ticks. -/
theorem ticksCountTheTimersDown : Obligations.TicksCountTheTimersDown := by
  unfold Obligations.TicksCountTheTimersDown
  intro n
  induction n with
  | zero =>
    intro s _ hs
    have hempty : s.inbox = [] := hs
    exact ⟨s, rfl, rfl, rfl, by rw [← hempty]⟩
  | succ n ih =>
    intro s hrs hs
    have hstep := step_tick hrs (hs.trans List.replicate_succ)
    obtain ⟨t, ht, hdt, hst, heq⟩ := 
      ih { s with inbox := List.replicate n .tick, dt := timerTick s.dt, st := timerTick s.st } hrs rfl
    refine ⟨t, (runFor_succ n hstep).trans ht, ?_, ?_, heq⟩
    · rw [hdt, toNat_timerTick]; omega
    · rw [hst, toNat_timerTick]; omega

/-- Settles O13: outside QUIT the keypad is replaced; in QUIT only the event is taken. -/
theorem setKeysWritesTheKeypad : Obligations.SetKeysWritesTheKeypad := by
  unfold Obligations.SetKeysWritesTheKeypad
  refine fun s k es hs => ⟨fun hrs => ?live, fun hrs => ?quit⟩
  case live => exact (step_of_cons hs).trans (congrArg _ (runSetKeys_of_ne_quit (s := s.setInbox es) hrs k))
  case quit => exact (step_of_cons hs).trans (congrArg _ (runSetKeys_of_quit (s := s.setInbox es) hrs k))

/-- An Init whose image is too long is refused (60_exceptions.md R225). -/
theorem step_init_too_large {rom : List Byte} {es : List Event} (hs : s.inbox = .init rom :: es)
    (h : Config.romMax < rom.length) : step s = .fault .romTooLarge := by
  rw [step_of_cons hs, handleEvent, runInit_eq, if_neg (Nat.not_le.2 h)]

/-- Settles O17: Init leaves the reset state but for memory, and the reset state is clear. -/
theorem initClearsTheRest : Obligations.InitClearsTheRest := by
  unfold Obligations.InitClearsTheRest
  refine fun s rom es hs => ⟨fun hlen => ?fits, fun hlen => step_init_too_large hs hlen⟩
  case fits =>
    refine ⟨_, step_init hs hlen, fun r => ?regs, rfl, rfl, fun k => ?stack, rfl, rfl, Display.pixel_blank, fun k => ?keys,
      rfl, rfl⟩
    case regs => exact Vector.getElem_replicate r.isLt
    case stack => exact Vector.getElem_replicate k.isLt
    case keys => exact Vector.getElem_replicate k.isLt

end Sys2Proof.Machine
end


section
/-! PROOF. What a Cycle can do to the state, said once (`CycleEffect`); that every step but an oversized Init has a next
state; and the transitions of RS, with QUIT the last state (60_exceptions.md R225, R251 to R255). -/

namespace Sys2Proof.Machine

variable {s t : State}

theorem fetch16_error {m : Memory} {a : Nat} {e : Raise} (h : fetch16 m a = .error e) : e.kind = .memOobFetch := by
  by_cases ha : a + 1 < Config.memSize
  · rw [fetch16_of_lt m ha] at h
    cases h
  · rw [fetch16_of_ge m (Nat.not_lt.1 ha)] at h
    cases h
    rfl

/-- What a Cycle in RUNNING can leave, from the state `s` with its random byte: a fetch fault, the effect of an instruction, or
PC moved on. -/
inductive CycleEffect (s : State) : State → Prop
  | fetchFault {e : Raise} (h : e.kind = .memOobFetch) : CycleEffect s (fatalPath s s.pc none e)
  | instr {i : Instr} {t : State} (h : Effect (s.setPc (s.pc + 2)) i t) : CycleEffect s t
  | unknown : CycleEffect s (s.setPc (s.pc + 2))

theorem fetchDecodeExecute_hasEffect (s : State) : ∃ t, fetchDecodeExecute s = .next t ∧ CycleEffect s t := by
  obtain ⟨e, hf, h⟩ | ⟨w, i, -, -, h⟩ | ⟨w, e, -, -, h⟩ := fetchDecodeExecute_cases s
  · exact ⟨_, h, .fetchFault (fetch16_error hf)⟩
  · obtain ⟨t, ht, heffect⟩ := exec_hasEffect i (s.setPc (s.pc + 2))
    exact ⟨t, h.trans ht, .instr heffect⟩
  · exact ⟨_, h, .unknown⟩

/-- A Cycle always answers a next state: the same outside RUNNING, a Cycle's effect in RUNNING. -/
theorem runCycle_hasEffect (r : Option Byte) (s : State) :
    ∃ t, runCycle r s = .next t ∧ (t = s ∨ (s.rs = .running ∧ CycleEffect (s.beginCycle r) t)) := by
  by_cases hrs : s.rs = .running
  · obtain ⟨t, ht, heffect⟩ := fetchDecodeExecute_hasEffect (s.beginCycle r)
    exact ⟨t, (runCycle_running hrs r).trans ht, .inr ⟨hrs, heffect⟩⟩
  · exact ⟨s, runCycle_not_running hrs r, .inl rfl⟩

theorem cycleEffect_of_runCycle {r : Option Byte} (h : runCycle r s = .next t) :
    t = s ∨ (s.rs = .running ∧ CycleEffect (s.beginCycle r) t) := by
  obtain ⟨u, hu, heffect⟩ := runCycle_hasEffect r s
  cases hu.symm.trans h
  exact heffect

@[simp] theorem beginCycle_rs (s : State) (r : Option Byte) : (s.beginCycle r).rs = s.rs := by cases r <;> rfl
@[simp] theorem beginCycle_mem (s : State) (r : Option Byte) : (s.beginCycle r).mem = s.mem := by cases r <;> rfl
@[simp] theorem beginCycle_fr (s : State) (r : Option Byte) : (s.beginCycle r).fr = s.fr := by cases r <;> rfl

/-- An Init that answers next had an image that fits. -/
theorem runInit_next {rom : List Byte} (h : runInit rom s = .next t) :
    rom.length ≤ Config.romMax ∧
    t = ((State.reset.setMem (Memory.place [] Config.romBase rom)).setInbox s.inbox).setDraw none s.draws := by
  rw [runInit_eq] at h
  split at h
  case isTrue hlen => cases h; exact ⟨hlen, rfl⟩
  case isFalse => cases h

/-- Settles O18: every event but an Init has a next state, and an Init has one unless its image is too long. -/
theorem stepAnswersNextButForAnOversizedRom : Obligations.StepAnswersNextButForAnOversizedRom := by
  unfold Obligations.StepAnswersNextButForAnOversizedRom
  intro s
  cases hs : s.inbox with
  | nil =>
    obtain ⟨t, ht, -⟩ := runCycle_hasEffect none s
    exact .inl ⟨t, (step_of_empty hs).trans ht⟩
  | cons e es =>
    cases e with
    | init rom =>
      by_cases hlen : rom.length ≤ Config.romMax
      · exact .inl ⟨_, step_init hs hlen⟩
      · have hlong : Config.romMax < rom.length := Nat.not_le.1 hlen
        exact .inr ⟨rom, es, rfl, hlong, step_init_too_large hs hlong⟩
    | cycle r =>
      obtain ⟨t, ht, -⟩ := runCycle_hasEffect (some r) (s.setInbox es)
      exact .inl ⟨t, (step_of_cons hs).trans ht⟩
    | tick => exact .inl ⟨_, step_of_cons hs⟩
    | setKeys k => exact .inl ⟨_, step_of_cons hs⟩
    | pauseToggle => exact .inl ⟨_, step_of_cons hs⟩
    | quit => exact .inl ⟨_, step_of_cons hs⟩

/-! ### The run state -/

theorem runTick_rs (s : State) : (runTick s).rs = s.rs := by
  by_cases h : s.rs = .quit
  · rw [runTick_of_quit h]
  · rw [runTick_of_ne_quit h, State.setSt_rs, State.setDt_rs]

theorem runSetKeys_rs (k : Keypad) (s : State) : (runSetKeys k s).rs = s.rs := by
  by_cases h : s.rs = .quit
  · rw [runSetKeys_of_quit h]
  · rw [runSetKeys_of_ne_quit h, State.setKeypad_rs]

/-- A Cycle keeps RS, or ends the run with a fault recorded. -/
theorem CycleEffect.rs (h : CycleEffect s t) : t.rs = s.rs ∨ (t.rs = .quit ∧ t.fr.valid = true) := by
  cases h with
  | fetchFault => exact .inr ⟨rfl, rfl⟩
  | unknown => exact .inl rfl
  | instr h =>
    obtain ⟨hrs, -⟩ | ⟨e, -, rfl⟩ := h.keeps_rs_fr
    · exact .inl hrs
    · exact .inr ⟨rfl, rfl⟩

theorem runCycle_rs {r : Option Byte} (h : runCycle r s = .next t) :
    t.rs = s.rs ∨ (s.rs = .running ∧ t.rs = .quit ∧ t.fr.valid = true) := by
  obtain rfl | ⟨hrun, heffect⟩ := cycleEffect_of_runCycle h
  · exact .inl rfl
  · exact heffect.rs.imp (fun hrs => hrs.trans (beginCycle_rs s r)) (fun hquit => ⟨hrun, hquit⟩)

/-- Settles O54: event by event, what it does to RS; taking the event from the inbox leaves RS as it is. -/
theorem runStateTransitions : Obligations.RunStateTransitions := by
  unfold Obligations.RunStateTransitions
  intro s t hstep
  cases hs : s.inbox with
  | nil => exact runCycle_rs ((step_of_empty hs).symm.trans hstep)
  | cons e es =>
    have hev : handleEvent e (s.setInbox es) = .next t := (step_of_cons hs).symm.trans hstep
    cases e with
    | init rom =>
      obtain ⟨-, rfl⟩ := runInit_next hev
      rfl
    | cycle r => exact runCycle_rs (s := s.setInbox es) hev
    | tick => cases hev; exact runTick_rs (s.setInbox es)
    | setKeys k => cases hev; exact runSetKeys_rs k (s.setInbox es)
    | pauseToggle =>
      cases hev
      exact ⟨fun h => congrArg State.rs (runPauseToggle_of_running (s := s.setInbox es) h),
        fun h => congrArg State.rs (runPauseToggle_of_paused (s := s.setInbox es) h),
        fun h => (congrArg State.rs (runPauseToggle_of_quit (s := s.setInbox es) h)).trans h⟩
    | quit => cases hev; rfl

/-- In QUIT an event other than Init is taken and has no effect (D24, D33). -/
theorem handleEvent_of_quit {e : Event} (hrs : s.rs = .quit) (he : ∀ rom, e ≠ .init rom) : handleEvent e s = .next s := by
  have hnot : s.rs ≠ .running := by simp [hrs]
  cases e with
  | init rom => exact absurd rfl (he rom)
  | cycle r => exact runCycle_not_running hnot (some r)
  | tick => exact congrArg _ (runTick_of_quit hrs)
  | setKeys k => exact congrArg _ (runSetKeys_of_quit hrs k)
  | pauseToggle => exact congrArg _ (runPauseToggle_of_quit hrs)
  | quit =>
    have hself : s.setRs .quit = s := by rw [← hrs]; rfl
    exact congrArg _ hself

/-- Settles O55, by induction on the number of steps: each takes one event, or is a Cycle of an empty inbox, without effect. -/
theorem quitIsFinal : Obligations.QuitIsFinal := by
  unfold Obligations.QuitIsFinal
  intro n
  induction n with
  | zero => exact fun s _ _ => rfl
  | succ n ih =>
    intro s hrs hinit
    cases hs : s.inbox with
    | nil =>
      have hstep : step s = .next s := (step_of_empty hs).trans (runCycle_not_running (by simp [hrs]) none)
      rw [runFor_succ n hstep, ih s hrs (by simp [hs]), hs, List.drop_nil, List.drop_nil]
    | cons e es =>
      rw [hs] at hinit
      have hstep : step s = .next (s.setInbox es) :=
        (step_of_cons hs).trans
          (handleEvent_of_quit (s := s.setInbox es) hrs fun rom he => hinit rom (by simp [he]))
      rw [runFor_succ n hstep, ih (s.setInbox es) hrs fun rom hmem => hinit rom (by simp_all)]
      rfl

end Sys2Proof.Machine
end


section
/-! PROOF. The invariant: it holds of the reset state, and every event keeps it (20_memory.md R60, 60_exceptions.md R222,
R223). -/

namespace Sys2Proof.Machine

variable {s t : State}

/-- A range stored outside the font keeps the canonical form and the font. -/
theorem place_keeps_memory {m : Memory} (hm : Memory.wf m = true) (hfont : m.FontIntact) {a : Nat} {bs : List Byte}
    (hpos : 0 < bs.length) (h : Storable a bs.length) :
    Memory.wf (Memory.place m a bs) = true ∧ (Memory.place m a bs).FontIntact := by
  obtain ⟨hlast, -⟩ := h (bs.length - 1) (by omega)
  have hfit : a + bs.length ≤ Config.memSize := by omega
  refine ⟨Memory.wf_place hm hfit, fun c hc => ?_⟩
  have houtside : ¬ (a ≤ c ∧ c < a + bs.length) := by
    rintro ⟨hle, hlt⟩
    obtain ⟨-, hnot⟩ := h (c - a) (by omega)
    rw [Nat.add_sub_cancel' hle, hc] at hnot
    cases hnot
  rw [Memory.read_place hm hfit, if_neg houtside, hfont c hc]

/-- The invariant speaks of memory, RS and FR only. -/
theorem State.Inv.of_eq (h : s.Inv) (hmem : t.mem = s.mem) (hrs : t.rs = s.rs) (hfr : t.fr = s.fr) : t.Inv := by
  obtain ⟨hwf, hfont, hrecord⟩ := h
  refine ⟨hmem ▸ hwf, hmem ▸ hfont, ?_⟩
  unfold State.FaultRecordOk
  rw [hrs, hfr]
  exact hrecord

/-- The invariant after a store outside the font. -/
theorem State.Inv.place (h : s.Inv) {a : Nat} {bs : List Byte} (hpos : 0 < bs.length) (hstore : Storable a bs.length) :
    (s.setMem (Memory.place s.mem a bs)).Inv := by
  obtain ⟨hwf, hfont, hrecord⟩ := h
  obtain ⟨hwf', hfont'⟩ := place_keeps_memory hwf hfont hpos hstore
  exact ⟨hwf', hfont', hrecord⟩

/-- The invariant after the fatal path, whose record is of a fetch fault exactly if it has no word. -/
theorem State.Inv.fatalPath (h : s.Inv) (p : Word) {w : Option Word} {e : Raise} (hkind : e.kind ≠ .none)
    (hword : w.isSome = (e.kind != .memOobFetch)) : (fatalPath s p w e).Inv := by
  obtain ⟨hwf, hfont, -⟩ := h
  refine ⟨hwf, hfont, .inr ⟨rfl, rfl, hkind, hword, ?_⟩⟩
  cases w with
  | none => exact fun _ => rfl
  | some w => exact nofun

/-- What an instruction raises has a kind, and it is no fetch fault. -/
theorem Raises.kind {i : Instr} {e : Raise} (h : Raises s i e) :
    e.kind ≠ .none ∧ (e.kind != .memOobFetch) = true := by
  cases h <;> exact ⟨nofun, rfl⟩

theorem State.Inv.effect (h : s.Inv) {i : Instr} (heffect : Effect s i t) : t.Inv := by
  cases heffect with
  | ldB x hstore => exact h.place (by simp) (by simpa using hstore)
  | store x hstore => exact h.place (by simp) (by simpa using hstore)
  | load x => rw [State.setVFrom_eq]; exact h.of_eq rfl rfl rfl
  | fatal hraise =>
    obtain ⟨hkind, hword⟩ := hraise.kind
    exact h.fatalPath _ hkind hword.symm
  | _ => exact h.of_eq rfl rfl rfl

theorem State.Inv.cycleEffect (h : s.Inv) (heffect : CycleEffect s t) : t.Inv := by
  cases heffect with
  | @fetchFault e hkind => exact h.fatalPath _ (by simp [hkind]) (by simp [hkind])
  | unknown => exact h.of_eq rfl rfl rfl
  | instr heffect => exact State.Inv.effect (s := s.setPc (s.pc + 2)) (h.of_eq rfl rfl rfl) heffect

theorem State.Inv.runCycle (h : s.Inv) {r : Option Byte} (hrun : runCycle r s = .next t) : t.Inv := by
  obtain rfl | ⟨-, heffect⟩ := cycleEffect_of_runCycle hrun
  · exact h
  · exact State.Inv.cycleEffect (h.of_eq (beginCycle_mem s r) (beginCycle_rs s r) (beginCycle_fr s r)) heffect

theorem State.Inv.runTick (h : s.Inv) : (runTick s).Inv := by
  by_cases hrs : s.rs = .quit
  · rwa [runTick_of_quit hrs]
  · rw [runTick_of_ne_quit hrs]
    exact h.of_eq rfl rfl rfl

theorem State.Inv.runSetKeys (h : s.Inv) (k : Keypad) : (runSetKeys k s).Inv := by
  by_cases hrs : s.rs = .quit
  · rwa [runSetKeys_of_quit hrs]
  · rw [runSetKeys_of_ne_quit hrs]
    exact h.of_eq rfl rfl rfl

/-- RS may change where FR is clear, and may become QUIT in any case. -/
theorem State.Inv.setRs (h : s.Inv) {r : RunState} (hr : s.rs ≠ .quit ∨ r = .quit) : (s.setRs r).Inv := by
  obtain ⟨hwf, hfont, hclear | ⟨hvalid, hquit, hrest⟩⟩ := h
  · exact ⟨hwf, hfont, .inl hclear⟩
  · have hr' : r = .quit := hr.resolve_left (absurd hquit)
    exact ⟨hwf, hfont, .inr ⟨hvalid, hr', hrest⟩⟩

theorem State.Inv.runPauseToggle (h : s.Inv) : (runPauseToggle s).Inv := by
  cases hrs : s.rs with
  | running => rw [runPauseToggle_of_running hrs]; exact h.setRs (.inl (by simp [hrs]))
  | paused => rw [runPauseToggle_of_paused hrs]; exact h.setRs (.inl (by simp [hrs]))
  | quit => rwa [runPauseToggle_of_quit hrs]

/-- Settles O57: the reset state lists no byte of memory, and its FR is clear. -/
theorem resetMeetsTheInvariant : Obligations.ResetMeetsTheInvariant := by
  unfold Obligations.ResetMeetsTheInvariant
  exact ⟨Memory.wf_reset, fun a _ => Memory.read_nil a, .inl ⟨rfl, rfl⟩⟩

/-- A ROM that fits lies above the font. -/
theorem inv_of_loadedRom {rom : List Byte} (h : rom.length ≤ Config.romMax) :
    (State.reset.setMem (Memory.place [] Config.romBase rom)).Inv := by
  have hfit : Config.romBase + rom.length ≤ Config.memSize := Nat.add_le_add_left h Config.romBase
  refine ⟨Memory.wf_place (m := []) Memory.wf_reset hfit, fun a ha => ?_, .inl ⟨rfl, rfl⟩⟩
  have hbelow := font_below_rom
  have hfont := (isFontAddr_iff a).1 ha
  exact (read_loadedRom h a).trans (if_neg (by omega))

theorem State.Inv.handleEvent (h : s.Inv) {e : Event} (hev : handleEvent e s = .next t) : t.Inv := by
  cases e with
  | init rom =>
    obtain ⟨hlen, rfl⟩ := runInit_next hev
    exact (inv_of_loadedRom hlen).of_eq rfl rfl rfl
  | cycle r => exact h.runCycle hev
  | tick => cases hev; exact h.runTick
  | setKeys k => cases hev; exact h.runSetKeys k
  | pauseToggle => cases hev; exact h.runPauseToggle
  | quit => cases hev; exact h.setRs (.inr rfl)

/-- Settles O58: the event taken from the inbox is not part of the invariant, and every event keeps it. -/
theorem stepKeepsTheInvariant : Obligations.StepKeepsTheInvariant := by
  unfold Obligations.StepKeepsTheInvariant
  intro s t hinv hstep
  cases hs : s.inbox with
  | nil => exact hinv.runCycle ((step_of_empty hs).symm.trans hstep)
  | cons e es =>
    exact State.Inv.handleEvent (s := s.setInbox es) (hinv.of_eq rfl rfl rfl) ((step_of_cons hs).symm.trans hstep)

end Sys2Proof.Machine
end


section
/-! PROOF. DRW (40_display.md R111 to R114). The drawing loop toggles, one after another, the pixels on which a 1 bit of the
sprite falls; they are listed, and what the loop does is said of the list. -/

namespace Sys2Proof.Machine

/-! ### The list of toggled pixels -/

/-- A pixel's coordinates, column and row. -/
abbrev Point := Fin 64 × Fin 32

/-- The pixel of column `col` of a sprite row, if its bit is 1 and falls on the display (R111, R112). -/
def spritePoint (edge : Config.DrawEdge) (x0 y0 row : Nat) (bits : Byte) (col : Nat) : Option Point :=
  if bits.getLsbD (7 - col) then place edge x0 y0 col row else none

/-- The pixels of a sprite row, in the order of the loop. -/
def rowPoints (edge : Config.DrawEdge) (x0 y0 row : Nat) (bits : Byte) : List Point :=
  (List.range 8).filterMap (spritePoint edge x0 y0 row bits)

/-- The pixels of the sprite's rows from row number `row` on, in the order of the loop. -/
def spritePoints (edge : Config.DrawEdge) (x0 y0 : Nat) : Nat → List Byte → List Point
  | _, [] => []
  | row, bits :: rest => rowPoints edge x0 y0 row bits ++ spritePoints edge x0 y0 (row + 1) rest

/-- One pixel toggled; the pair is the display and the collision so far (R111, R113). -/
def togglePoint (acc : Display × Bool) (p : Point) : Display × Bool :=
  (Display.flip acc.1 p.1 p.2, acc.2 || Display.pixel acc.1 p.1 p.2)

theorem drawBit_eq (edge : Config.DrawEdge) (x0 y0 row : Nat) (bits : Byte) (acc : Display × Bool) (col : Nat) :
    drawBit edge x0 y0 row bits acc col =
      match spritePoint edge x0 y0 row bits col with
      | some p => togglePoint acc p
      | none => acc := by
  unfold drawBit spritePoint
  by_cases hbit : bits.getLsbD (7 - col) = true
  · rw [if_pos hbit, if_pos hbit]
    cases place edge x0 y0 col row <;> rfl
  · rw [if_neg hbit, if_neg hbit]

theorem drawRow_eq (edge : Config.DrawEdge) (x0 y0 row : Nat) (bits : Byte) (acc : Display × Bool) :
    drawRow edge x0 y0 row bits acc = (rowPoints edge x0 y0 row bits).foldl togglePoint acc := by
  rw [rowPoints, List.foldl_filterMap]
  refine congrArg (List.foldl · acc (List.range 8)) (funext₂ fun a col => (drawBit_eq ..).trans ?_)
  cases spritePoint edge x0 y0 row bits col <;> rfl

theorem drawRows_eq (edge : Config.DrawEdge) (x0 y0 row : Nat) (sprite : List Byte) (acc : Display × Bool) :
    drawRows edge x0 y0 row sprite acc = (spritePoints edge x0 y0 row sprite).foldl togglePoint acc := by
  induction sprite generalizing row acc with
  | nil => rfl
  | cons bits rest ih => rw [drawRows, ih, drawRow_eq, spritePoints, List.foldl_append]

/-- The whole draw toggles the pixels of the list. -/
theorem drawSprite_eq (edge : Config.DrawEdge) (x0 y0 : Nat) (sprite : List Byte) (d : Display) :
    drawSprite edge x0 y0 sprite d = (spritePoints edge x0 y0 0 sprite).foldl togglePoint (d, false) :=
  drawRows_eq edge x0 y0 0 sprite (d, false)

/-! ### Toggling a list of pixels -/

/-- A pixel is inverted once for each time the list names it. -/
theorem pixel_foldl_toggle (ps : List Point) (acc : Display × Bool) (x : Fin 64) (y : Fin 32) :
    Display.pixel (ps.foldl togglePoint acc).1 x y = (Display.pixel acc.1 x y ^^ (ps.count (x, y)).bodd) := by
  induction ps generalizing acc with
  | nil => simp
  | cons p ps ih =>
    rw [List.foldl_cons, ih, togglePoint, Display.pixel_flip]
    by_cases h : p = (x, y)
    · subst h
      simp
    · have hne : ¬ (x = p.1 ∧ y = p.2) := fun ⟨hx, hy⟩ => h (by rw [hx, hy])
      rw [if_neg hne, List.count_cons_of_ne h]

/-- If the list names no pixel twice, exactly its pixels are inverted. -/
theorem pixel_foldl_toggle_of_nodup {ps : List Point} (hps : ps.Nodup) (acc : Display × Bool) (x : Fin 64) (y : Fin 32) :
    Display.pixel (ps.foldl togglePoint acc).1 x y =
      if (x, y) ∈ ps then !Display.pixel acc.1 x y else Display.pixel acc.1 x y := by
  rw [pixel_foldl_toggle, hps.count]
  split <;> simp

/-- If the list names no pixel twice, the collision is that one of its pixels was on before. -/
theorem collision_foldl_toggle {ps : List Point} (hps : ps.Nodup) (acc : Display × Bool) :
    (ps.foldl togglePoint acc).2 = true ↔ acc.2 = true ∨ ∃ p ∈ ps, Display.pixel acc.1 p.1 p.2 = true := by
  induction ps generalizing acc with
  | nil => simp
  | cons p ps ih =>
    obtain ⟨hp, hps⟩ := List.nodup_cons.1 hps
    have hkept : ∀ q ∈ ps, Display.pixel (Display.flip acc.1 p.1 p.2) q.1 q.2 = Display.pixel acc.1 q.1 q.2 := by
      intro q hq
      rw [Display.pixel_flip, if_neg]
      rintro ⟨h1, h2⟩
      exact hp (Prod.ext h1 h2 ▸ hq)
    rw [List.foldl_cons, ih hps, togglePoint, List.exists_mem_cons_iff, Bool.or_eq_true, or_assoc]
    refine or_congr_right (or_congr_right (exists_congr fun q => and_congr_right fun hq => ?_))
    rw [hkept q hq]

/-- Settles O23: what is toggled does not depend on the display, and toggling twice as often changes nothing. -/
theorem drawingTwiceRestoresTheDisplay : Obligations.DrawingTwiceRestoresTheDisplay := by
  unfold Obligations.DrawingTwiceRestoresTheDisplay
  intro edge x0 y0 sprite d
  refine Display.ext_pixel fun x y => ?_
  rw [drawSprite_eq, pixel_foldl_toggle, drawSprite_eq, pixel_foldl_toggle, Bool.xor_assoc, Bool.xor_self, Bool.xor_false]

/-! ### Which pixels the list names -/

/-- Where Place puts a bit (R112). -/
theorem place_eq_some_iff (edge : Config.DrawEdge) (x0 y0 col row : Nat) (p : Point) :
    place edge x0 y0 col row = some p ↔
      match edge with
      | .wrap => (x0 + col) % 64 = p.1.val ∧ (y0 + row) % 32 = p.2.val
      | .clip => x0 % 64 + col = p.1.val ∧ y0 % 32 + row = p.2.val := by
  obtain ⟨x, y⟩ := p
  cases edge with
  | wrap => simp [place, Fin.ext_iff]
  | clip =>
    by_cases h : x0 % 64 + col < 64 ∧ y0 % 32 + row < 32
    · simp [place, h, Fin.ext_iff]
    · simp only [place, h, dite_false]
      refine iff_of_false nofun fun ⟨hx, hy⟩ => h ⟨hx ▸ x.isLt, hy ▸ y.isLt⟩

/-- Bits of one sprite of at most 32 rows fall on different pixels. -/
theorem place_injective {edge : Config.DrawEdge} {x0 y0 col col' row row' : Nat} {p : Point}
    (h : place edge x0 y0 col row = some p) (h' : place edge x0 y0 col' row' = some p) (hcol : col < 8) (hcol' : col' < 8)
    (hrow : row < 32) (hrow' : row' < 32) : col = col' ∧ row = row' := by
  rw [place_eq_some_iff] at h h'
  cases edge <;> simp only at h h' <;> omega

theorem spritePoint_eq_some_iff (edge : Config.DrawEdge) (x0 y0 row : Nat) (bits : Byte) (col : Nat) (p : Point) :
    spritePoint edge x0 y0 row bits col = some p ↔
      bits.getLsbD (7 - col) = true ∧ place edge x0 y0 col row = some p := by
  unfold spritePoint
  split <;> simp_all

theorem mem_rowPoints (edge : Config.DrawEdge) (x0 y0 row : Nat) (bits : Byte) (p : Point) :
    p ∈ rowPoints edge x0 y0 row bits ↔
      ∃ col, col < 8 ∧ bits.getLsbD (7 - col) = true ∧ place edge x0 y0 col row = some p := by
  simp only [rowPoints, List.mem_filterMap, List.mem_range, spritePoint_eq_some_iff]

theorem mem_spritePoints (edge : Config.DrawEdge) (x0 y0 row : Nat) (sprite : List Byte) (p : Point) :
    p ∈ spritePoints edge x0 y0 row sprite ↔
      ∃ k col, k < sprite.length ∧ col < 8 ∧ (sprite.getD k 0).getLsbD (7 - col) = true ∧
        place edge x0 y0 col (row + k) = some p := by
  induction sprite generalizing row with
  | nil => simp [spritePoints]
  | cons bits rest ih =>
    rw [spritePoints, List.mem_append, mem_rowPoints, ih]
    constructor
    · rintro (⟨col, hcol, hbit, hplace⟩ | ⟨k, col, hk, hcol, hbit, hplace⟩)
      · exact ⟨0, col, by simp, hcol, by simpa using hbit, by simpa using hplace⟩
      · exact ⟨k + 1, col, by simpa using hk, hcol, by simpa using hbit, by rwa [← Nat.add_assoc, Nat.add_right_comm]⟩
    · rintro ⟨k, col, hk, hcol, hbit, hplace⟩
      cases k with
      | zero => exact .inl ⟨col, hcol, by simpa using hbit, by simpa using hplace⟩
      | succ k =>
        exact .inr ⟨k, col, by simpa using hk, hcol, by simpa using hbit, by rwa [Nat.add_right_comm, Nat.add_assoc]⟩

theorem nodup_rowPoints (edge : Config.DrawEdge) (x0 y0 : Nat) {row : Nat} (hrow : row < 32) (bits : Byte) :
    (rowPoints edge x0 y0 row bits).Nodup := by
  refine List.pairwise_filterMap.2 (List.nodup_range.imp_of_mem fun {c c'} hc hc' hne p hp p' hp' heq => ?_)
  subst heq
  rw [spritePoint_eq_some_iff] at hp hp'
  obtain ⟨-, hplace⟩ := hp
  obtain ⟨-, hplace'⟩ := hp'
  obtain ⟨hcol, -⟩ := place_injective hplace hplace' (List.mem_range.1 hc) (List.mem_range.1 hc') hrow hrow
  exact hne hcol

/-- A sprite of at most 32 rows toggles no pixel twice. -/
theorem nodup_spritePoints (edge : Config.DrawEdge) (x0 y0 : Nat) {row : Nat} {sprite : List Byte}
    (h : row + sprite.length ≤ 32) : (spritePoints edge x0 y0 row sprite).Nodup := by
  induction sprite generalizing row with
  | nil => exact List.nodup_nil
  | cons bits rest ih =>
    simp only [List.length_cons] at h
    refine List.nodup_append'.2 ⟨nodup_rowPoints edge x0 y0 (by omega) bits, ih (by omega), fun p hp hp' => ?_⟩
    obtain ⟨col, hcol, -, hplace⟩ := (mem_rowPoints ..).1 hp
    obtain ⟨k, col', hk, hcol', -, hplace'⟩ := (mem_spritePoints ..).1 hp'
    obtain ⟨-, hrow⟩ := place_injective hplace hplace' hcol hcol' (by omega) (by omega)
    omega

/-- The pixels toggled by a draw of `n` rows at I are the covered ones. -/
theorem mem_spritePoints_bytesAtI (s : State) (edge : Config.DrawEdge) (x0 y0 n : Nat) (x : Fin 64) (y : Fin 32) :
    (x, y) ∈ spritePoints edge x0 y0 0 (s.bytesAtI n) ↔ Covers edge s.mem s.i.toNat x0 y0 n x y := by
  rw [mem_spritePoints, State.bytesAtI_length]
  refine exists_congr fun row => exists_congr fun col => and_congr_right fun hrow => and_congr_right fun _ => ?_
  rw [State.bytesAtI_getD s hrow, Nat.zero_add]
  exact and_congr_right fun _ => place_eq_some_iff edge x0 y0 col row (x, y)

/-! ### The obligations -/

/-- The draw's collision: some covered pixel was on (R113). -/
theorem drawnAtI_collision (s : State) (x y : RegIdx) (edge : Config.DrawEdge) {n : Nat} (hn : n ≤ 32) :
    (s.drawnAtI x y edge n).2 = true ↔
      ∃ a b, Covers edge s.mem s.i.toNat (s.getV x).toNat (s.getV y).toNat n a b ∧ Display.pixel s.display a b = true := by
  have hnodup := nodup_spritePoints edge (s.getV x).toNat (s.getV y).toNat (row := 0) (sprite := s.bytesAtI n)
    (by simpa using hn)
  rw [State.drawnAtI, drawSprite_eq, collision_foldl_toggle hnodup]
  simp only [Bool.false_eq_true, false_or, Prod.exists, mem_spritePoints_bytesAtI]

/-- The draw's pixels: the covered ones are inverted (R111). -/
theorem drawnAtI_pixel (s : State) (x y : RegIdx) (edge : Config.DrawEdge) {n : Nat} (hn : n ≤ 32) (a : Fin 64)
    (b : Fin 32) :
    (Covers edge s.mem s.i.toNat (s.getV x).toNat (s.getV y).toNat n a b →
      Display.pixel (s.drawnAtI x y edge n).1 a b = !Display.pixel s.display a b) ∧
    (¬ Covers edge s.mem s.i.toNat (s.getV x).toNat (s.getV y).toNat n a b →
      Display.pixel (s.drawnAtI x y edge n).1 a b = Display.pixel s.display a b) := by
  have hnodup := nodup_spritePoints edge (s.getV x).toNat (s.getV y).toNat (row := 0) (sprite := s.bytesAtI n)
    (by simpa using hn)
  rw [State.drawnAtI, drawSprite_eq, pixel_foldl_toggle_of_nodup hnodup, ← mem_spritePoints_bytesAtI]
  exact ⟨fun h => if_pos h, fun h => if_neg h⟩

/-- A draw of at most 32 rows has the pixelwise outcome. -/
theorem drawn_afterDraw (s : State) (x y : RegIdx) (edge : Config.DrawEdge) {n : Nat} (hn : n ≤ 32) :
    Drawn edge s.i.toNat (s.getV x).toNat (s.getV y).toNat n s (s.afterDraw x y edge n) := by
  have hcollision := drawnAtI_collision s x y edge hn
  have hvf : (s.afterDraw x y edge n).getV vf = flagByte (s.drawnAtI x y edge n).2 := State.getV_setV_same _ _ _
  refine ⟨fun a b => (drawnAtI_pixel s x y edge hn a b).1, fun a b => (drawnAtI_pixel s x y edge hn a b).2,
    fun h => ?on, fun h => ?off⟩
  case on => rw [hvf, hcollision.2 h]; rfl
  case off => rw [hvf, Bool.eq_false_iff.2 (mt hcollision.1 h)]; rfl

/-- The draw writes no general register but VF. -/
theorem sameRegsBut_afterDraw (s : State) (x y : RegIdx) (edge : Config.DrawEdge) (n : Nat) :
    SameRegsBut [vf] s (s.afterDraw x y edge n) := fun _ hr =>
  State.getV_setV_ne _ _ (List.ne_of_not_mem_cons hr)

/-- Settles O20: the row by the class; the drawing loop toggles exactly the covered pixels, each of them once. -/
theorem drwInvertsTheCoveredPixels : Obligations.DrwInvertsTheCoveredPixels := by
  unfold Obligations.DrwInvertsTheCoveredPixels
  refine ⟨fun strict _ hc => decodeUnder_of_classD strict hc, fun x y n s h =>
    ⟨s.afterDraw x y .wrap n.val, exec_drw_inside s x y h, drawn_afterDraw s x y .wrap (by omega),
      sameRegsBut_afterDraw s x y .wrap n.val, sameMemory_of_mem_eq rfl, rfl⟩⟩

/-- Settles O21: the same loop under CLIP, where a bit past the edge is on no pixel. -/
theorem clippedDrawDropsBitsPastTheEdge : Obligations.ClippedDrawDropsBitsPastTheEdge := by
  unfold Obligations.ClippedDrawDropsBitsPastTheEdge
  exact fun x y n s hn h =>
    ⟨s.afterDraw x y .clip n, drawUnder_inside s x y .clip h, drawn_afterDraw s x y .clip (by omega),
      sameRegsBut_afterDraw s x y .clip n, rfl⟩

/-- Settles O22: a row outside memory raises before any pixel changes. -/
theorem drwBeyondMemoryIsFatal : Obligations.DrwBeyondMemoryIsFatal := by
  unfold Obligations.DrwBeyondMemoryIsFatal
  exact fun x y n s hn h => ⟨_, exec_drw_beyond s x y hn h, rfl⟩

end Sys2Proof.Machine
end


section
/-! PROOF. RET after CALL, JP V0, and the skips on two registers and on a key (41_control_flow.md R122 to R131,
44_keys_timers.md R189 to R191); the wait for a key (44_keys_timers.md R193); the outputs (60_exceptions.md R246, R261). -/

namespace Sys2Proof.Machine

/-! ### Control flow -/

/-- Settles O26: the CALL fills the slot at SP, and the RET takes that slot. -/
theorem retAfterCallReturnsBehindTheCall : Obligations.RetAfterCallReturnsBehindTheCall := by
  unfold Obligations.RetAfterCallReturnsBehindTheCall
  intro nnn z p s h
  refine ⟨_, _, exec_call s nnn h, exec_ret _ z (Nat.succ_pos _), ?pc, rfl⟩
  case pc => exact Vector.getElem_set_self h

/-- The target of JP V0 is at most 0x10FE, so the sum does not wrap (R129). -/
theorem toNat_jpV0_target (nnn : BitVec 12) (b : Byte) : (zext16 nnn + b.setWidth 16).toNat = nnn.toNat + b.toNat := by
  have hn : nnn.toNat < 4096 := nnn.isLt
  have hb : b.toNat < 256 := b.isLt
  rw [BitVec.toNat_add, toNat_zext16, BitVec.toNat_setWidth_of_le (by decide), Nat.mod_eq_of_lt (by omega)]

/-- Settles O28: the row by the class; JP V0 sets PC alone, to the exact sum. -/
theorem jpV0AddsV0 : Obligations.JpV0AddsV0 := by
  unfold Obligations.JpV0AddsV0
  exact ⟨fun strict _ hc => decodeUnder_of_classB strict hc, fun nnn s =>
    ⟨_, exec_jpV0 s nnn, toNat_jpV0_target nnn (s.getV 0), onlyPc_setPc s _⟩⟩

/-- A skip differs in PC alone, which is 2 further if its condition holds (R131). -/
theorem exec_skip_spec {i : Instr} {s : State} {b : Bool} (h : exec i s = .next (skipIf b s)) {p : Word}
    (hp : (if b then s.pc + 2 else s.pc) = p) : ∃ t, exec i s = .next t ∧ t.pc = p ∧ OnlyPc s t :=
  ⟨_, h.trans (congrArg _ (skipIf_eq_setPc b s)), hp, onlyPc_setPc s _⟩

/-- Settles O30: the rows by their classes; each skip by the outcome of its comparison. -/
theorem registerSkips : Obligations.RegisterSkips := by
  unfold Obligations.RegisterSkips
  refine ⟨row_ofClass5, row_ofClass9, fun x y n s =>
    ⟨exec_skip_spec (exec_seReg s x y n) ?equal, exec_skip_spec (exec_sneReg s x y n) ?unequal⟩⟩
  case equal => by_cases h : s.getV x = s.getV y <;> simp [h]
  case unequal => by_cases h : s.getV x = s.getV y <;> simp [h]

/-- The key of V[X] is the one its low nibble numbers (R189, D14). -/
theorem keyOf_eq {s : State} {x k : RegIdx} (h : (s.getV x).toNat % 16 = k.val) : s.keyOf x = s.keys[k.val] := by
  have hk : lowNibble (s.getV x) = k := Fin.ext h
  rw [State.keyOf]
  simp only [hk]

/-- Settles O31: the rows by the dispatch of class 0xE; each skip by the state of the key. -/
theorem keySkips : Obligations.KeySkips := by
  unfold Obligations.KeySkips
  refine ⟨row_ofClassE fun _ => decodeClassE_skp, row_ofClassE fun _ => decodeClassE_sknp, fun x k s h =>
    ⟨exec_skip_spec (exec_skp s x) ?pressed, exec_skip_spec (exec_sknp s x) ?released⟩⟩
  case pressed => rw [keyOf_eq h]
  case released => rw [keyOf_eq h]; cases s.keys[k.val] <;> rfl

/-! ### The wait for a key -/

/-- The lowest pressed key is the one that is found. -/
theorem lowestKey_eq_some {ks : Keypad} {k : RegIdx} (hk : ks[k.val] = true)
    (hlow : ∀ j : RegIdx, j < k → ks[j.val] = false) : lowestKey ks = some k := by
  cases h : lowestKey ks with
  | none => simp [lowestKey_none h k] at hk
  | some j =>
    obtain ⟨hj, hjlow⟩ := lowestKey_some h
    obtain hlt | rfl | hgt := lt_trichotomy j k
    · simp [hlow j hlt] at hj
    · rfl
    · simp [hjlow k hgt] at hk

theorem lowestKey_eq_none {ks : Keypad} (h : ∀ j : RegIdx, ks[j.val] = false) : lowestKey ks = none := by
  cases hk : lowestKey ks with
  | none => rfl
  | some k =>
    obtain ⟨hpressed, -⟩ := lowestKey_some hk
    simp [h k] at hpressed

theorem toNat_keyByte (k : RegIdx) : (keyByte k).toNat = k.val := by
  rw [keyByte, BitVec.toNat_ofNat, Nat.mod_eq_of_lt (by omega)]

/-- Settles O49: the row by the dispatch of class 0xF; the key found is the lowest pressed one, and with none PC goes back. -/
theorem waitForKeyTakesTheLowest : Obligations.WaitForKeyTakesTheLowest := by
  unfold Obligations.WaitForKeyTakesTheLowest
  refine ⟨row_ofClassF fun _ => decodeClassF_ldVxK, fun x s => ⟨fun k hk hlow => ?pressed, fun h => ?waiting⟩⟩
  case pressed =>
    obtain ⟨t, ht, hkey, honly⟩ := exec_setV_spec (exec_ldVxK_pressed s x (lowestKey_eq_some hk hlow))
    exact ⟨t, ht, (congrArg BitVec.toNat hkey).trans (toNat_keyByte k), honly⟩
  case waiting => exact ⟨_, exec_ldVxK_waiting s x (lowestKey_eq_none h), rfl, onlyPc_setPc s _⟩

/-! ### The outputs -/

/-- Bit y * 64 + x of the display port is pixel (x, y) (R246). -/
theorem outputs_display_getElem (s : State) (x : Fin 64) (y : Fin 32) :
    s.outputs.display[y.val * 64 + x.val]'(by omega) = Display.pixel s.display x y := by
  have hx : (⟨(y.val * 64 + x.val) % 64, Nat.mod_lt _ (by decide)⟩ : Fin 64) = x := Fin.ext (by simp)
  have hy : (⟨(y.val * 64 + x.val) / 64, by omega⟩ : Fin 32) = y := Fin.ext (by simp; omega)
  rw [State.outputs, Vector.getElem_ofFn, State.displayBit]
  exact congrArg₂ _ hx hy

/-- The sound is on exactly while ST, as a number, is not 0 (R34). -/
theorem soundOn_iff_toNat (s : State) : s.soundOn = true ↔ s.st.toNat ≠ 0 := by
  rw [soundOn_iff, ne_eq, ← BitVec.toNat_inj]
  rfl

/-- Settles O56: each output by its definition; the codes of RS and FR.kind one by one. -/
theorem outputsShowTheState : Obligations.OutputsShowTheState := by
  unfold Obligations.OutputsShowTheState
  refine fun s x y => ⟨soundOn_iff_toNat s, outputs_display_getElem s x y, rfl, rfl, rfl, ?rs, ?kind⟩
  case rs =>
    change s.rs.code.toNat = _
    cases s.rs <;> rfl
  case kind =>
    change s.fr.kind.code.toNat = _
    cases s.fr.kind <;> rfl

end Sys2Proof.Machine
end


section
/-! PROOF. The instructions with a flag: ADD, SUB, SUBN, SHR and SHL (42_alu.md R138, R146 to R150, R152), and RND (42_alu.md
R151). -/

namespace Sys2Proof.Machine

/-! ### Flags as numbers -/

theorem toNat_flagByte (p : Prop) [Decidable p] : (flagByte (decide p)).toNat = if p then 1 else 0 := by
  by_cases h : p <;> simp [flagByte, h]

theorem toNat_carryFlag (a b : Byte) : (carryFlag a b).toNat = if 256 ≤ a.toNat + b.toNat then 1 else 0 :=
  toNat_flagByte _

theorem toNat_notBorrowFlag (a b : Byte) : (notBorrowFlag a b).toNat = if b.toNat ≤ a.toNat then 1 else 0 :=
  toNat_flagByte _

/-- A flag that holds a bit is that bit's number. -/
theorem toNat_flagByte_getLsbD (a : Byte) (k : Nat) : (flagByte (a.getLsbD k)).toNat = a.toNat / 2 ^ k % 2 := by
  have hbit : a.getLsbD k = decide (a.toNat / 2 ^ k % 2 = 1) := Nat.testBit_eq_decide_div_mod_eq
  rw [hbit, toNat_flagByte]
  split <;> omega

theorem toNat_shrFlag (a : Byte) : (shrFlag a).toNat = a.toNat % 2 := by
  rw [shrFlag, toNat_flagByte_getLsbD, Nat.pow_zero, Nat.div_one]

theorem toNat_shlFlag (a : Byte) : (shlFlag a).toNat = a.toNat / 128 := by
  have ha : a.toNat < 256 := a.isLt
  rw [shlFlag, toNat_flagByte_getLsbD]
  omega

/-! ### Results as numbers -/

theorem toNat_byte_sub (a b : Byte) : (a - b).toNat = (a.toNat + 256 - b.toNat) % 256 := by
  have hb : b.toNat < 256 := b.isLt
  rw [BitVec.toNat_sub]
  omega

theorem toNat_byte_shr (a : Byte) : (a >>> 1).toNat = a.toNat / 2 := by
  rw [BitVec.toNat_ushiftRight, Nat.shiftRight_eq_div_pow, Nat.pow_one]

theorem toNat_byte_shl (a : Byte) : (a <<< 1).toNat = a.toNat * 2 % 256 := by
  rw [BitVec.toNat_shiftLeft, Nat.shiftLeft_eq, Nat.pow_one]

/-! ### The result and the flag written -/

/-- The result stands in V[X] but for X = F, where the flag comes last (D7); both given as numbers. -/
theorem setResultFlag_spec (s : State) (x : RegIdx) {r f : Byte} {a b : Nat} (hr : r.toNat = a) (hf : f.toNat = b) :
    (x ≠ vf → ((s.setResultFlag x r f).getV x).toNat = a) ∧ ((s.setResultFlag x r f).getV vf).toNat = b ∧
    OnlyRegs [x, vf] s (s.setResultFlag x r f) := by
  refine ⟨fun hx => ?result, ?flag, ?frame⟩
  case result => rw [State.setResultFlag, State.getV_setV_ne _ f hx, State.getV_setV_same, hr]
  case flag => rw [State.setResultFlag, State.getV_setV_same, hf]
  case frame =>
    exact ((OnlyRegs.refl [x, vf] s).setV List.mem_cons_self _).setV (List.mem_cons_of_mem x List.mem_cons_self) _

/-- An instruction that answers a result and a flag. -/
theorem exec_setResultFlag_spec {i : Instr} {s : State} {x : RegIdx} {r f : Byte} {a b : Nat}
    (h : exec i s = .next (s.setResultFlag x r f)) (hr : r.toNat = a) (hf : f.toNat = b) :
    ∃ t, exec i s = .next t ∧ (x ≠ vf → (t.getV x).toNat = a) ∧ (t.getV vf).toNat = b ∧ OnlyRegs [x, vf] s t :=
  ⟨_, h, setResultFlag_spec s x hr hf⟩

/-! ### The obligations -/

/-- Settles O34: the row by the dispatch of class 0x8; the sum and its carry. -/
theorem addWithCarry : Obligations.AddWithCarry := by
  unfold Obligations.AddWithCarry
  exact ⟨row_ofClass8 fun _ => decodeClass8_addReg, fun x y s =>
    exec_setResultFlag_spec (exec_addReg s x y) (BitVec.toNat_add _ _) (toNat_carryFlag _ _)⟩

/-- Settles O35: the rows by the dispatch of class 0x8; the difference and its not-borrow, either way round. -/
theorem subtractWithNotBorrow : Obligations.SubtractWithNotBorrow := by
  unfold Obligations.SubtractWithNotBorrow
  exact ⟨row_ofClass8 fun _ => decodeClass8_subReg, row_ofClass8 fun _ => decodeClass8_subn, fun x y s =>
    ⟨exec_setResultFlag_spec (exec_subReg s x y) (toNat_byte_sub _ _) (toNat_notBorrowFlag _ _),
      exec_setResultFlag_spec (exec_subn s x y) (toNat_byte_sub _ _) (toNat_notBorrowFlag _ _)⟩⟩

/-- Settles O36: the rows by the dispatch of class 0x8; under the spec's SHIFT_SOURCE the operand is V[X]. -/
theorem shiftsMoveTheLostBitToVf : Obligations.ShiftsMoveTheLostBitToVf := by
  unfold Obligations.ShiftsMoveTheLostBitToVf
  exact ⟨row_ofClass8 fun _ => decodeClass8_shr, row_ofClass8 fun _ => decodeClass8_shl, fun x y s =>
    ⟨exec_setResultFlag_spec (exec_shr s x y) (toNat_byte_shr (s.getV x)) (toNat_shrFlag (s.getV x)),
      exec_setResultFlag_spec (exec_shl s x y) (toNat_byte_shl (s.getV x)) (toNat_shlFlag (s.getV x))⟩⟩

/-- Settles O37: under SHIFT_SOURCE = VY the operand is V[Y]. -/
theorem shiftsOfVyWriteVx : Obligations.ShiftsOfVyWriteVx := by
  unfold Obligations.ShiftsOfVyWriteVx
  exact fun x y s =>
    ⟨setResultFlag_spec s x (toNat_byte_shr (s.getV y)) (toNat_shrFlag (s.getV y)),
      setResultFlag_spec s x (toNat_byte_shl (s.getV y)) (toNat_shlFlag (s.getV y))⟩

/-- Settles O38: the row by the class; RND sets V[X] alone, from the byte of the Cycle event where there is one. -/
theorem rndMasksTheRandomByte : Obligations.RndMasksTheRandomByte := by
  unfold Obligations.RndMasksTheRandomByte
  exact ⟨fun strict _ hc => decodeUnder_of_classC strict hc, fun x nn r s =>
    ⟨exec_setV_spec (exec_rnd { s with rnd := some r } x nn), exec_setV_spec (exec_rnd s x nn)⟩⟩

end Sys2Proof.Machine
end


section
/-! PROOF. Index arithmetic, the stores and the load (43_index_memory.md R169 to R175), and the policies they depend on
(20_memory.md R52). -/

namespace Sys2Proof.Machine

/-! ### Index arithmetic -/

theorem toNat_add_setWidth (i : Word) (b : Byte) : (i + b.setWidth 16).toNat = (i.toNat + b.toNat) % 65536 := by
  rw [BitVec.toNat_add, BitVec.toNat_setWidth_of_le (by decide)]

/-- The glyphs lie far below 65536, so no address is cut. -/
theorem toNat_glyphAddr (b : Byte) : (glyphAddr b).toNat = Config.fontBase + 5 * (b.toNat % 16) := by
  have hfont : Config.fontBase + 80 ≤ 65536 := by decide
  rw [glyphAddr, BitVec.toNat_ofNat, lowNibble, Nat.mod_eq_of_lt (by omega)]

/-- Settles O41: the rows by the dispatch of class 0xF; each instruction sets I alone. -/
theorem indexArithmetic : Obligations.IndexArithmetic := by
  unfold Obligations.IndexArithmetic
  exact ⟨row_ofClassF fun _ => decodeClassF_addI, row_ofClassF fun _ => decodeClassF_ldF, fun x s =>
    ⟨⟨_, exec_addI s x, toNat_add_setWidth s.i (s.getV x), onlyIndex_setI s _⟩,
      ⟨_, exec_ldF s x, toNat_glyphAddr (s.getV x), onlyIndex_setI s _⟩⟩⟩

/-! ### A stored range -/

/-- A range that can be stored lies inside memory. -/
theorem Storable.fits {a n : Nat} (h : Storable a n) (hpos : 0 < n) : a + n ≤ Config.memSize := by
  obtain ⟨hlast, -⟩ := h (n - 1) (by omega)
  omega

/-- A placed byte is read back. -/
theorem read_place_add {m : Memory} (hm : Memory.wf m = true) {a k : Nat} {bs : List Byte} (h : Storable a bs.length)
    (hk : k < bs.length) : Memory.read (Memory.place m a bs) (a + k) = bs.getD k 0 := by
  rw [Memory.read_place hm (h.fits (by omega)), if_pos (by omega), Nat.add_sub_cancel_left]

/-- A range placed changes its own bytes alone. -/
theorem onlyMemory_place {s : State} (hm : Memory.wf s.mem = true) {a n : Nat} {bs : List Byte} (hlen : bs.length = n)
    (hpos : 0 < n) (h : Storable a n) : OnlyMemory a n s (s.setMem (Memory.place s.mem a bs)) := by
  subst hlen
  refine ⟨sameRegsBut_of_v_eq [] rfl, rfl, rfl, fun c hc => ?_, rfl, rfl, rfl, rfl, rfl, rfl, rfl, rfl, rfl, rfl, rfl⟩
  exact (Memory.read_place hm (h.fits hpos) c).trans (if_neg hc)

/-! ### LD B -/

/-- A number below 256 is kept by a byte. -/
theorem toNat_byte_ofNat {n : Nat} (h : n < 256) : (BitVec.ofNat 8 n).toNat = n := by
  rw [BitVec.toNat_ofNat, Nat.mod_eq_of_lt h]

/-- The three digits as numbers (R173). -/
theorem toNat_bcdDigits (b : Byte) :
    ((bcdDigits b).getD 0 0).toNat = b.toNat / 100 ∧ ((bcdDigits b).getD 1 0).toNat = b.toNat / 10 % 10 ∧
    ((bcdDigits b).getD 2 0).toNat = b.toNat % 10 := by
  have hb : b.toNat < 256 := b.isLt
  exact ⟨toNat_byte_ofNat (by omega), toNat_byte_ofNat (by omega), toNat_byte_ofNat (by omega)⟩

/-- Settles O42: the row by the dispatch of class 0xF; the three digits stored, or one of the two fatal paths. -/
theorem ldBStoresTheDecimalDigits : Obligations.LdBStoresTheDecimalDigits := by
  unfold Obligations.LdBStoresTheDecimalDigits
  refine ⟨row_ofClassF fun _ => decodeClassF_ldB, fun x s hm => ⟨fun h => ?stored, fun h => ?beyond, fun h => ?font⟩⟩
  case stored =>
    have hread {k : Nat} (hk : k < 3) := read_place_add (bs := bcdDigits (s.getV x)) hm h hk
    obtain ⟨hundreds, tens, ones⟩ := toNat_bcdDigits (s.getV x)
    exact ⟨_, exec_ldB_storable s x h, (congrArg BitVec.toNat (hread (k := 0) (by decide))).trans hundreds,
      (congrArg BitVec.toNat (hread (k := 1) (by decide))).trans tens,
      (congrArg BitVec.toNat (hread (k := 2) (by decide))).trans ones, onlyMemory_place hm rfl (by decide) h⟩
  case beyond =>
    exact ⟨_, exec_ldB_beyond s x (Nat.succ_lt_succ h), fatalStop_fatalPath s _ _,
      toNat_addr_max s.i (Nat.le_refl Config.memSize)⟩
  case font => exact ⟨_, exec_ldB_onFont s x h, fatalStop_fatalPath s _ _⟩

/-! ### LD [I] -/

/-- After a store that fits, each register up to X stands at its address. -/
theorem read_place_regsUpTo {s : State} (hm : Memory.wf s.mem = true) {x r : RegIdx}
    (h : Storable s.i.toNat (x.val + 1)) (hr : r ≤ x) :
    Memory.read (Memory.place s.mem s.i.toNat (s.regsUpTo x)) (s.i.toNat + r.val) = s.getV r := by
  have hlen := s.regsUpTo_length x
  rw [read_place_add hm (hlen ▸ h) (hlen ▸ Nat.lt_succ_of_le hr), State.regsUpTo_getD s x r hr]

/-- Settles O43: the row by the dispatch of class 0xF; the registers stored, or one of the two fatal paths. -/
theorem storeWritesTheRegisters : Obligations.StoreWritesTheRegisters := by
  unfold Obligations.StoreWritesTheRegisters
  refine ⟨row_ofClassF fun _ => decodeClassF_store, fun x s hm => ⟨fun h => ?stored, fun h => ?beyond, fun h => ?font⟩⟩
  case stored =>
    exact ⟨_, exec_store_storable s x h, fun r hr => read_place_regsUpTo hm h hr,
      onlyMemory_place hm (s.regsUpTo_length x) (Nat.succ_pos _) h⟩
  case beyond => exact ⟨_, exec_store_beyond s x (Nat.succ_lt_succ h), rfl⟩
  case font =>
    obtain ⟨k, hk, hf⟩ := h
    exact ⟨_, exec_store_onFont s x ⟨k, Nat.lt_succ_of_le hk, hf⟩, rfl⟩

/-- Settles O47: the fetch reads two of the stored registers, the first as the high byte. -/
theorem fetchSeesTheStoredBytes : Obligations.FetchSeesTheStoredBytes := by
  unfold Obligations.FetchSeesTheStoredBytes
  intro x r q s t hm h hq hqr hexec
  cases (exec_store_storable s x h).symm.trans hexec
  have hfits := h.fits (Nat.succ_pos _)
  have hqx : q.val ≤ x.val := hq
  have hr : r ≤ x := Fin.le_def.2 (by omega)
  have hlow := read_place_regsUpTo hm h hq
  rw [hqr, ← Nat.add_assoc] at hlow
  rw [fetch16_of_lt _ (by omega), State.setMem_mem, read_place_regsUpTo hm h hr, hlow]
  rfl

/-! ### LD Vx, [I] -/

/-- Loading registers changes the register file alone. -/
theorem setVFrom_frame (s : State) (k : Nat) (bs : List Byte) :
    (s.setVFrom k bs).i = s.i ∧ (s.setVFrom k bs).pc = s.pc ∧ SameMemory s (s.setVFrom k bs) ∧
    SameUnits s (s.setVFrom k bs) := by
  rw [State.setVFrom_eq]
  exact ⟨rfl, rfl, sameMemory_of_mem_eq rfl, rfl, rfl, rfl, rfl, rfl, rfl, rfl, rfl, rfl, rfl, rfl⟩

/-- Settles O44: the row by the dispatch of class 0xF; the registers up to X loaded, or the fatal path. -/
theorem loadReadsTheRegisters : Obligations.LoadReadsTheRegisters := by
  unfold Obligations.LoadReadsTheRegisters
  refine ⟨row_ofClassF fun _ => decodeClassF_load, fun x s => ⟨fun h => ?loaded, fun h => ?beyond⟩⟩
  case loaded =>
    have hlen : (s.bytesAtI (x.val + 1)).length = x.val + 1 := s.bytesAtI_length _
    have hget := State.getV_setVFrom s (k := 0) (bs := s.bytesAtI (x.val + 1)) (by omega)
    refine ⟨_, exec_load_inside s x (Nat.succ_le_succ h), fun r hr => ?upTo, fun r hr => ?above, setVFrom_frame s 0 _⟩
    case upTo =>
      have hr' : r.val < x.val + 1 := Nat.lt_succ_of_le hr
      rw [hget, if_pos (by omega), Nat.sub_zero, State.bytesAtI_getD s hr']
    case above =>
      have hr' : x.val < r.val := hr
      rw [hget, if_neg (by omega)]
  case beyond => exact ⟨_, exec_load_beyond s x (Nat.succ_lt_succ h), rfl⟩

/-! ### The policies -/

/-- A store that does not fault leaves I where LOADSTORE_I_INCREMENT puts it. -/
theorem storeRegsUnder_i {p : Config.FontWritePolicy} {inc : Config.LoadStoreIncrement} {x : RegIdx} {s t : State}
    (h : storeRegsUnder p inc x s = .ok t) : t.i = indexAfterUnder inc x s.i := by
  unfold storeRegsUnder at h
  split at h <;> cases h
  rfl

/-- A load that does not fault leaves I where LOADSTORE_I_INCREMENT puts it. -/
theorem loadRegsUnder_i {inc : Config.LoadStoreIncrement} {x : RegIdx} {s t : State}
    (h : loadRegsUnder inc x s = .ok t) : t.i = indexAfterUnder inc x s.i := by
  unfold loadRegsUnder at h
  split at h <;> cases h
  rfl

/-- Settles O45: both operations end by the one rule for I. -/
theorem incrementPolicyMovesTheIndex : Obligations.IncrementPolicyMovesTheIndex := by
  unfold Obligations.IncrementPolicyMovesTheIndex
  intro p inc x s t h
  have hi : t.i = indexAfterUnder inc x s.i := h.elim storeRegsUnder_i loadRegsUnder_i
  rw [hi]
  cases inc with
  | none => rfl
  | x => simp [indexAfterUnder]
  | xPlusOne => simp [indexAfterUnder, Nat.add_assoc]

/-- Settles O46: bounds first, then the policy. -/
theorem fontWritePolicyDecides : Obligations.FontWritePolicyDecides := by
  unfold Obligations.FontWritePolicyDecides
  refine fun m a v hm => ⟨fun ha p => ?beyond, fun hf => ?font⟩
  case beyond => exact if_neg (Nat.not_lt.2 ha)
  case font =>
    have hbelow := font_far_below_end
    have ha : a < Config.memSize := by
      have := (isFontAddr_iff a).1 hf
      omega
    have hdecide (p : Config.FontWritePolicy) : memWriteUnder p m a v = _ := (if_pos ha).trans (if_pos hf)
    exact ⟨hdecide .fatal, hdecide .ignore, Memory.write m a v, hdecide .allow, Memory.read_write_same hm a v⟩

end Sys2Proof.Machine
end
